-- ==== Sys2Proof/Word.lean ====
section
/-! DEFINITION. The word of the block and the bounds of words and addresses (00_scope.md R8, R9). -/

namespace Sys2Proof

/-- A word: "64, signed two's complement" (00_scope.md R8). Its value is the signed integer `w.toInt` (R9). -/
abbrev Word := BitVec 64

/-- `WMIN = -2^63` (00_scope.md R8). -/
def wordMin : Int := -9223372036854775808

/-- `WMAX = 2^63 - 1` (00_scope.md R8). -/
def wordMax : Int := 9223372036854775807

/-- `ADDR_MAX`, the greatest address: "`WMAX` (addresses are the non-negative words)" (00_scope.md R8). -/
def addrMax : Nat := 9223372036854775807

end Sys2Proof
end

