-- ==== Sys2Proof/Config.lean ====
section
/-! DEFINITION. The implementation parameters of 00_scope.md R8 that a model takes as an argument. The spec leaves no result
open, so there is no free value here. -/

namespace Sys2Proof

/-- `OVERFLOW_POLICY`: the result of a computation outside the word range (00_scope.md R8, 92_eei_decisions.md D2). -/
inductive OverflowPolicy where
  | fault
  | wrap
  deriving DecidableEq, Repr

/-- `MEM_CAPACITY`: how many addressable words the store can hold (00_scope.md R8, 20_memory.md R55). -/
inductive Capacity where
  | unbounded
  | bounded (c : Nat)
  deriving DecidableEq, Repr

/-- `EXCESS_MODE_DIGITS`: what becomes of mode digits beyond an operation's arity (30_encoding.md R78). -/
inductive ExcessDigits where
  | ignore
  | refuse
  deriving DecidableEq, Repr

/-- The parameters of one machine. State carries them and no step changes them (DESIGN CHOICE, safe: log 1). -/
structure Config where
  overflow : OverflowPolicy
  capacity : Capacity
  excess   : ExcessDigits
  deriving DecidableEq, Repr

/-- The values this spec takes (00_scope.md R8): `Fault`, `Unbounded`, `Ignore`. -/
def Config.spec : Config := ⟨.fault, .unbounded, .ignore⟩

end Sys2Proof
end

