-- ==== Sys2Proof/Syntax.lean ====
section
/-! DEFINITION. The instructions as syntax: modes, operands, the opcode map and the ten operations (30_encoding.md R70 to R74,
R95 to R97). -/

namespace Sys2Proof

/-- The three addressing modes (30_encoding.md R74). -/
inductive Mode where
  | direct
  | immediate
  | relative
  deriving DecidableEq, Repr

/-- An operand: its mode with its raw operand word, any word (30_encoding.md R79). The spec writes the three forms `[n]`,
`#n` and `[rb+n]` (R95). -/
inductive Operand where
  | direct (n : Word)
  | immediate (n : Word)
  | relative (n : Word)
  deriving DecidableEq, Repr

def Operand.mode : Operand → Mode
  | .direct _ => .direct
  | .immediate _ => .immediate
  | .relative _ => .relative

def Operand.word : Operand → Word
  | .direct n => n
  | .immediate n => n
  | .relative n => n

/-- A read operand's value is used; a write operand's address receives the result (30_encoding.md R71). -/
inductive Role where
  | read
  | write
  deriving DecidableEq, Repr

/-- The ten operations (30_encoding.md R71), one per row of opcode_table.json. -/
inductive Opcode where
  | add | mul | inp | out | jt | jf | lt | eq | arb | halt
  deriving DecidableEq, Repr

/-- The instructions: an operation with its operands, in operand order (30_encoding.md R70, R71). -/
inductive Instr where
  | add (a b c : Operand)
  | mul (a b c : Operand)
  | inp (c : Operand)
  | out (a : Operand)
  | jt (a b : Operand)
  | jf (a b : Operand)
  | lt (a b c : Operand)
  | eq (a b c : Operand)
  | arb (a : Operand)
  | halt
  deriving DecidableEq, Repr

def Instr.opcode : Instr → Opcode
  | .add _ _ _ => .add
  | .mul _ _ _ => .mul
  | .inp _ => .inp
  | .out _ => .out
  | .jt _ _ => .jt
  | .jf _ _ => .jf
  | .lt _ _ _ => .lt
  | .eq _ _ _ => .eq
  | .arb _ => .arb
  | .halt => .halt

def Instr.operands : Instr → List Operand
  | .add a b c => [a, b, c]
  | .mul a b c => [a, b, c]
  | .inp c => [c]
  | .out a => [a]
  | .jt a b => [a, b]
  | .jf a b => [a, b]
  | .lt a b c => [a, b, c]
  | .eq a b c => [a, b, c]
  | .arb a => [a]
  | .halt => []

/-- Every operation, in the order of the opcode map. -/
def Opcode.all : List Opcode := [.add, .mul, .inp, .out, .jt, .jf, .lt, .eq, .arb, .halt]

/-- The column "selector" of the opcode map (30_encoding.md R71). -/
def Opcode.selector : Opcode → Int
  | .add => 1
  | .mul => 2
  | .inp => 3
  | .out => 4
  | .jt => 5
  | .jf => 6
  | .lt => 7
  | .eq => 8
  | .arb => 9
  | .halt => 99

/-- The column "roles" of the opcode map (30_encoding.md R71). -/
def Opcode.roles : Opcode → List Role
  | .add => [.read, .read, .write]
  | .mul => [.read, .read, .write]
  | .inp => [.write]
  | .out => [.read]
  | .jt => [.read, .read]
  | .jf => [.read, .read]
  | .lt => [.read, .read, .write]
  | .eq => [.read, .read, .write]
  | .arb => [.read]
  | .halt => []

/-- The column "arity": the fixed number of operands (30_encoding.md R71, R81). -/
def Opcode.arity (o : Opcode) : Nat := o.roles.length

/-- The length of an instruction in words, its "width": the instruction word and its operand words (30_encoding.md R70). -/
def Opcode.width (o : Opcode) : Nat := 1 + o.arity

/-- The pseudo-instruction `MOV a, c`, which "expands to `ADD a, #0, c`" (30_encoding.md R97). -/
def Instr.mov (a c : Operand) : Instr := .add a (.immediate 0) c

/-- The pseudo-instruction `JMP t`, which "expands to `JT #1, t`" (30_encoding.md R97). -/
def Instr.jmp (t : Operand) : Instr := .jt (.immediate 1) t

end Sys2Proof
end

