-- ==== Sys2Proof/Machine/State.lean ====
section
/-! DEFINITION. The state of the block (10_state.md R20, R26, R34), the host's side of the protocol as plain data
(60_exceptions.md R174), the reasons a step can stop, and the state after reset (70_reset_and_hazards.md R190). -/

namespace Sys2Proof.Machine

open Sys2Proof

/-- The faults of the block, with their payloads (60_exceptions.md R160). Raising one is no stop of the model: fault entry
(R166) gives a next state. -/
inductive BlockFault where
  | unknownOpcode (selector : Int)
  | unknownMode (digit : Nat)
  | writeToImmediate
  | negativeAddress
  | overflow
  | capacityExceeded
  deriving DecidableEq, Repr

/-- The exit reason: `Halted`, or a fault (10_state.md R31). -/
inductive ExitReason where
  | halted
  | fault (f : BlockFault)
  deriving DecidableEq, Repr

/-- The status register, "a tagged value" of four kinds; a field that is not valid for the kind does not exist
(10_state.md R26, R27). The payload of `awaiting` is an address, kept in `[0, ADDR_MAX]` by the invariant `Inv`. -/
inductive Status where
  | paused
  | awaiting (dst : Nat)
  | outputting (v : Word)
  | exit (reason : ExitReason)
  deriving DecidableEq, Repr

/-- The evaluation result of a step (40_execution_cycle.md R108). -/
inductive EvalResult where
  | continue
  | awaitingInput
  | producingOutput
  | halted
  | faulted
  deriving DecidableEq, Repr

/-- What fetching an instruction ends with when it ends without one: a fault of the block, or the model's refusal of excess
mode digits (40_execution_cycle.md R106, 30_encoding.md R78). -/
inductive FetchStop where
  | fault (f : BlockFault)
  | refuse
  deriving DecidableEq, Repr

/-- The word memory as a list of (address, word) pairs, addresses strictly rising and no word equal to what an unlisted
address reads as (`Memory.wf`). The smallest unit any access moves is one word (20_memory.md R56), so it lists words and
not bytes (DEDUCED, safe: log 8). -/
abbrev Memory := List (Nat × Word)

/-- The commands of the host (60_exceptions.md R174). INSPECT names the one memory word it reads (DESIGN CHOICE, safe:
log 18). -/
inductive Command where
  | load (program : List Word)
  | resume
  | feed (x : Word)
  | inspect (a : Nat)
  | abandon
  deriving DecidableEq, Repr

/-- What the host receives: the new status of a RESUME (60_exceptions.md R178), or what INSPECT read (R184). -/
inductive Reply where
  | resumed (status : Status)
  | inspected (pc : Nat) (rb : Word) (status : Status) (word : Word)
  deriving DecidableEq, Repr

/-- A command the host must not issue: FEED outside Awaiting (60_exceptions.md R181), a program that does not fit
(70_reset_and_hazards.md R192), an INSPECT of a number that is no address (60_exceptions.md R184). The last two are host
duties whose breach the spec gives no outcome: the model aborts the host (DESIGN CHOICE, safe: log 7). -/
inductive HostError where
  | feedWhileNotAwaiting
  | programTooLong
  | inspectNoAddress
  deriving DecidableEq, Repr

/-- Whose move it is: the host's, between commands, or the engine's, inside a RESUME (40_execution_cycle.md R109,
60_exceptions.md R159; DESIGN CHOICE, safe: log 2). -/
inductive Turn where
  | host
  | engine
  deriving DecidableEq, Repr

/-- Why a step stops with a fault of the MODEL. The faults of the block are `BlockFault` and stop nothing. -/
inductive Fault where
  /-- Raised by every step after the host issued a command it must not issue: "an outcome that is never final and never
  successful" (60_exceptions.md R181). Safe: such a run has no further state, so no claim about its end can be proved. -/
  | hostAborted (e : HostError)
  deriving DecidableEq, Repr

/-- Why a step answers with no meaning. -/
inductive Refusal where
  /-- Raised by `exec` for an instruction that has no meaning yet; no arm raises it. Safe: the run stops. -/
  | notModelled (mnemonic : String)
  /-- Raised by every step after the mark `refused` was set under `EXCESS_MODE_DIGITS = Refuse` (60_exceptions.md R168,
  30_encoding.md R78). Safe: "A refused run proves nothing about the hardware." -/
  | excessModeDigits
  deriving DecidableEq, Repr

/-- The state of one instance of the block, with the host that drives it. -/
structure State where
  /-- The program counter, an address (10_state.md R21). -/
  pc : Nat
  /-- The relative base (10_state.md R24). -/
  rb : Word
  /-- The status register (10_state.md R26). -/
  status : Status
  /-- The memory (20_memory.md R50). -/
  mem : Memory
  /-- The model-only mark `refused` (10_state.md R34). -/
  refused : Bool
  /-- The parameters of the machine (00_scope.md R8); no step changes them (log 1). -/
  config : Config
  /-- Whether a RESUME is running (log 2). -/
  turn : Turn
  /-- The commands the host has still to issue, the next one first (log 2). -/
  commands : List Command
  /-- What the host received since LOAD, oldest first (60_exceptions.md R174, R187; log 2, log 17). -/
  replies : List Reply
  /-- The host's error, once it made one (60_exceptions.md R181; log 6). -/
  aborted : Option HostError
  deriving DecidableEq, Repr

/-- The state after LOAD of the empty program under the parameters this spec takes: `pc = 0`, `rb = 0`, `status = Paused`,
every word 0, `refused = false` (10_state.md R35 to R39, 70_reset_and_hazards.md R190, R192; DESIGN CHOICE, safe: log 9),
with the host about to move and nothing to issue (DESIGN CHOICE, safe: log 2). -/
def State.reset : State where
  pc := 0
  rb := 0
  status := .paused
  mem := []
  refused := false
  config := Config.spec
  turn := .host
  commands := []
  replies := []
  aborted := none

end Sys2Proof.Machine
end

