-- ==== Sys2Proof/Machine/Ops.lean ====
section
/-! DEFINITION. The named operations over memory and registers: MemRead, MemWrite and capacity (20_memory.md R51, R52), the
program image (10_state.md R38), fault entry (60_exceptions.md R166), and the suspension of a run with the return from it
(R172, R175 to R177). -/

namespace Sys2Proof.Machine

open Sys2Proof

/-- What an address reads as that nothing wrote (10_state.md R38, 20_memory.md R53). -/
def Memory.unlisted : Word := 0

/-- `mem[a]` (20_memory.md R50). -/
def Memory.read : Memory → Nat → Word
  | [], _ => Memory.unlisted
  | c :: m, a => if a = c.1 then c.2 else Memory.read m a

/-- The memory without the entry of `a`. -/
def Memory.remove (m : Memory) (a : Nat) : Memory := m.filter fun c => c.1 != a

/-- The memory with a new entry in its place by address. -/
def Memory.insert : Memory → Nat → Word → Memory
  | [], a, v => [(a, v)]
  | c :: m, a, v => if a < c.1 then (a, v) :: c :: m else c :: Memory.insert m a v

/-- `mem[a] <- v` (20_memory.md R52), keeping the canonical form. -/
def Memory.write (m : Memory) (a : Nat) (v : Word) : Memory :=
  if v = Memory.unlisted then m.remove a else (m.remove a).insert a v

/-- The canonical form: addresses strictly rising, and no entry equal to what an unlisted address reads as. -/
abbrev Memory.wf (m : Memory) : Prop :=
  m.Pairwise (fun c d => c.1 < d.1) ∧ ∀ c ∈ m, c.2 ≠ Memory.unlisted

/-- The image of a program placed at `a`: `mem[a + i] = P[i]`, and 0 elsewhere (10_state.md R38). -/
def Memory.image (a : Nat) : List Word → Memory
  | [] => []
  | w :: ws => if w = Memory.unlisted then Memory.image (a + 1) ws else (a, w) :: Memory.image (a + 1) ws

/-- Whether the store holds address `a`: always when unbounded, below `c` when `Bounded(c)` (20_memory.md R51, R52). -/
def Capacity.holds : Capacity → Nat → Bool
  | .unbounded, _ => true
  | .bounded c, a => decide (a < c)

/-- `MemRead(a, 1)` (20_memory.md R51). -/
def memRead (s : State) (a : Nat) : Except BlockFault Word :=
  if Capacity.holds s.config.capacity a then .ok (s.mem.read a) else .error .capacityExceeded

/-- The write of a word with no check before it. -/
def State.store (s : State) (a : Nat) (v : Word) : State := { s with mem := s.mem.write a v }

/-- `MemWrite(a, 1, v)` (20_memory.md R52). -/
def memWrite (s : State) (a : Nat) (v : Word) : Except BlockFault State :=
  if Capacity.holds s.config.capacity a then .ok (s.store a v) else .error .capacityExceeded

/-- `pc <- np`. -/
def State.setPc (s : State) (np : Nat) : State := { s with pc := np }

/-- `rb <- nrb`. -/
def State.setRb (s : State) (nrb : Word) : State := { s with rb := nrb }

/-- `status <- S`. -/
def State.setStatus (s : State) (st : Status) : State := { s with status := st }

/-- Fault entry: `status <- Exit(F)`; "mem, rb and pc keep the values they had before the step" (60_exceptions.md R166). -/
def State.takeFault (s : State) (f : BlockFault) : State := s.setStatus (.exit (.fault f))

/-- The end of an instruction that started in `s`: its writes, or fault entry into `s` itself, so that no write of a faulting
instruction has happened (40_execution_cycle.md R107, 60_exceptions.md R166). -/
def complete (s : State) (r : Except BlockFault State) : Host.Outcome State Fault Refusal :=
  match r with
  | .ok t => .next t
  | .error f => .next (s.takeFault f)

/-- The test of the run loop, `while status = Paused` (40_execution_cycle.md R110): a run goes on while the status is Paused,
and otherwise its RESUME returns the new status to the host (60_exceptions.md R177, R178), in the same step of the model
(DESIGN CHOICE, safe: log 4). -/
def State.returnIfSuspended (s : State) : State :=
  match s.status with
  | .paused => s
  | st => { s with turn := .host, replies := s.replies ++ [.resumed st] }

/-- The status RESUME starts from: an unread output is discarded (60_exceptions.md R176). -/
def Status.discardOutput : Status → Status
  | .outputting _ => .paused
  | st => st

/-- RESUME (60_exceptions.md R175): the run starts, and is over at once in Awaiting and in Exit. -/
def State.resume (s : State) : State :=
  { s with status := s.status.discardOutput, turn := .engine }.returnIfSuspended

/-- The block's reset, LOAD(P): the reset values of 10_state.md R35 to R39 (70_reset_and_hazards.md R190). The record of
what the host received starts anew with the instance's run, whose outputs alone it yields (60_exceptions.md R187; DESIGN
CHOICE, safe: log 17). The machine's parameters and the host's commands are not the instance's and stay. -/
def State.load (s : State) (program : List Word) : State :=
  { s with pc := 0, rb := 0, status := .paused, mem := Memory.image 0 program, refused := false, turn := .host,
           replies := [] }

end Sys2Proof.Machine
end

