-- ==== Sys2Proof/Machine/Flags.lean ====
section
/-! DEFINITION. "The block has no status flags, condition codes or predicate registers" (10_state.md R25). This file holds what
stands in their place: the range checks of a computed value (40_execution_cycle.md R104, 43_control.md R141), the result
word of a comparison and the tests of a jump (10_state.md R25). -/

namespace Sys2Proof.Machine

open Sys2Proof

/-- `inWord(v)`: `WMIN <= v <= WMAX` (00_scope.md R9). -/
abbrev inWord (v : Int) : Prop := wordMin ≤ v ∧ v ≤ wordMax

/-- `wrap(v)`, "the unique word u with u = v modulo 2^64" (40_execution_cycle.md R104). -/
def wrap (v : Int) : Word := BitVec.ofInt 64 v

/-- `CheckWord(v)` (40_execution_cycle.md R104). A value in range is the word of that value. -/
def checkWord (p : OverflowPolicy) (v : Int) : Except BlockFault Word :=
  if inWord v then .ok (BitVec.ofInt 64 v)
  else
    match p with
    | .fault => .error .overflow
    | .wrap => .ok (wrap v)

/-- `CheckAddr(a)`, "under either OVERFLOW_POLICY" (40_execution_cycle.md R104). -/
def checkAddr (a : Nat) : Except BlockFault Nat :=
  if addrMax < a then .error .overflow else .ok a

/-- `JumpTarget(b)` (43_control.md R141). -/
def jumpTarget (b : Word) : Except BlockFault Nat :=
  if b.toInt < 0 then .error .negativeAddress else .ok b.toInt.toNat

/-- The result word of a comparison: "1 or 0" (10_state.md R25). -/
def truthWord (holds : Bool) : Word := if holds then 1 else 0

/-- "signed comparison of words" (41_arithmetic_compare.md R122). -/
def lessThan (a b : Word) : Bool := decide (a.toInt < b.toInt)

/-- "Equality is on whole words" (41_arithmetic_compare.md R123). -/
def equals (a b : Word) : Bool := decide (a.toInt = b.toInt)

/-- "any nonzero `a` is true, including negative values" (43_control.md R142). -/
def testsTrue (a : Word) : Bool := decide (a.toInt ≠ 0)

/-- "only `a = 0` jumps" (43_control.md R143). -/
def testsFalse (a : Word) : Bool := decide (a.toInt = 0)

end Sys2Proof.Machine
end

