-- ==== Sys2Proof/Machine/Operands.lean ====
section
/-! DEFINITION. Operand resolution in the three modes and two roles (40_execution_cycle.md R101 to R103, R105). -/

namespace Sys2Proof.Machine

open Sys2Proof

/-- `DirectAddr(x)`: the operand word itself; a negative one faults (40_execution_cycle.md R102). -/
def directAddr (x : Word) : Except BlockFault Nat :=
  if x.toInt < 0 then .error .negativeAddress else .ok x.toInt.toNat

/-- `RelAddr(x)`: the relative base plus the operand word, checked by the overflow policy (40_execution_cycle.md R103). -/
def relAddr (s : State) (x : Word) : Except BlockFault Nat :=
  match s.config.overflow with
  | .fault =>
    let e := s.rb.toInt + x.toInt
    if e < 0 then .error .negativeAddress
    else if (addrMax : Int) < e then .error .overflow
    else .ok e.toNat
  | .wrap =>
    let e := (wrap (s.rb.toInt + x.toInt)).toInt
    if e < 0 then .error .negativeAddress else .ok e.toNat

/-- `ResolveRead(mode, x)`: the operand's value (40_execution_cycle.md R101). -/
def resolveRead (s : State) : Operand → Except BlockFault Word
  | .direct x => do
    let a ← directAddr x
    memRead s a
  | .immediate x => .ok x
  | .relative x => do
    let a ← relAddr s x
    memRead s a

/-- `ResolveWrite(mode, x)`: the operand's address, with no access to memory (40_execution_cycle.md R101, R105). -/
def resolveWrite (s : State) : Operand → Except BlockFault Nat
  | .direct x => directAddr x
  | .immediate _ => .error .writeToImmediate
  | .relative x => relAddr s x

/-- The sequential next `pc`: `CheckAddr(pc + width)` (40_execution_cycle.md R104). -/
def nextPc (s : State) (width : Nat) : Except BlockFault Nat := checkAddr (s.pc + width)

end Sys2Proof.Machine
end

