-- ==== Sys2Proof/Machine/Arithmetic.lean ====
section
/-! DEFINITION. The arithmetic and compare instructions ADD, MUL, LT and EQ (41_arithmetic_compare.md R120 to R123). -/

namespace Sys2Proof.Machine

open Sys2Proof

/-- The common shape of the family: resolve the two read operands and the write operand in operand order, compute the result
word, check the next `pc`, write the result, advance `pc` (40_execution_cycle.md R100, R106; 41_arithmetic_compare.md). -/
def storeResult (f : Word → Word → Except BlockFault Word) (a b c : Operand) (s : State) : Except BlockFault State := do
  let va ← resolveRead s a
  let vb ← resolveRead s b
  let dst ← resolveWrite s c
  let r ← f va vb
  let np ← nextPc s 4
  let t ← memWrite s dst r
  .ok (t.setPc np)

/-- ADD (41_arithmetic_compare.md R120). -/
def execAdd (a b c : Operand) (s : State) : Host.Outcome State Fault Refusal :=
  complete s (storeResult (fun va vb => checkWord s.config.overflow (va.toInt + vb.toInt)) a b c s)

/-- MUL (41_arithmetic_compare.md R121). -/
def execMul (a b c : Operand) (s : State) : Host.Outcome State Fault Refusal :=
  complete s (storeResult (fun va vb => checkWord s.config.overflow (va.toInt * vb.toInt)) a b c s)

/-- LT (41_arithmetic_compare.md R122). -/
def execLt (a b c : Operand) (s : State) : Host.Outcome State Fault Refusal :=
  complete s (storeResult (fun va vb => .ok (truthWord (lessThan va vb))) a b c s)

/-- EQ (41_arithmetic_compare.md R123). -/
def execEq (a b c : Operand) (s : State) : Host.Outcome State Fault Refusal :=
  complete s (storeResult (fun va vb => .ok (truthWord (equals va vb))) a b c s)

end Sys2Proof.Machine
end

