-- ==== Sys2Proof/Machine/Control.lean ====
section
/-! DEFINITION. The control-transfer instructions JT, JF and HALT (43_control.md R140 to R144). -/

namespace Sys2Proof.Machine

open Sys2Proof

/-- The next `pc` of a conditional jump: only a taken jump checks its target (43_control.md R141). -/
def branchPc (s : State) (taken : Bool) (target : Word) : Except BlockFault Nat :=
  if taken then jumpTarget target else nextPc s 3

/-- The common shape of JT and JF: both operands are resolved whether or not the jump is taken (43_control.md R142,
R143). -/
def jumpIf (taken : Word → Bool) (a b : Operand) (s : State) : Except BlockFault State := do
  let va ← resolveRead s a
  let vb ← resolveRead s b
  let np ← branchPc s (taken va) vb
  .ok (s.setPc np)

/-- JT (43_control.md R142). -/
def execJt (a b : Operand) (s : State) : Host.Outcome State Fault Refusal :=
  complete s (jumpIf testsTrue a b s)

/-- JF (43_control.md R143). -/
def execJf (a b : Operand) (s : State) : Host.Outcome State Fault Refusal :=
  complete s (jumpIf testsFalse a b s)

/-- HALT: `status <- Exit(Halted)`; "pc is not changed" (43_control.md R144). -/
def execHalt (s : State) : Host.Outcome State Fault Refusal :=
  .next (s.setStatus (.exit .halted))

end Sys2Proof.Machine
end

