-- ==== Sys2Proof/Machine/InputOutput.lean ====
section
/-! DEFINITION. The input and output instructions IN and OUT (42_io.md R130, R131): each advances `pc` and suspends. -/

namespace Sys2Proof.Machine

open Sys2Proof

/-- The capacity check IN makes of its destination (42_io.md R130). -/
def checkCapacity (s : State) (a : Nat) : Except BlockFault Unit :=
  if Capacity.holds s.config.capacity a then .ok () else .error .capacityExceeded

/-- "advance pc first, then suspend": the end of IN and of OUT (42_io.md R130, R131). -/
def suspendAs (s : State) (st : Status) : Except BlockFault State := do
  let np ← nextPc s 2
  .ok ((s.setPc np).setStatus st)

/-- IN (42_io.md R130): the destination is resolved and checked now, latched in the status, and written later by FEED. -/
def execIn (c : Operand) (s : State) : Host.Outcome State Fault Refusal :=
  complete s do
    let dst ← resolveWrite s c
    checkCapacity s dst
    suspendAs s (.awaiting dst)

/-- OUT (42_io.md R131). -/
def execOut (a : Operand) (s : State) : Host.Outcome State Fault Refusal :=
  complete s do
    let va ← resolveRead s a
    suspendAs s (.outputting va)

end Sys2Proof.Machine
end

