-- ==== Sys2Proof/Machine/RelativeBase.lean ====
section
/-! DEFINITION. The relative-base instruction ARB (44_relative_base.md R150). -/

namespace Sys2Proof.Machine

open Sys2Proof

/-- ARB (44_relative_base.md R150): a Relative operand is resolved with the old `rb`. -/
def execArb (a : Operand) (s : State) : Host.Outcome State Fault Refusal :=
  complete s do
    let va ← resolveRead s a
    let nrb ← checkWord s.config.overflow (s.rb.toInt + va.toInt)
    let np ← nextPc s 2
    .ok ((s.setRb nrb).setPc np)

end Sys2Proof.Machine
end

