-- ==== Sys2Proof/Decode.lean ====
section
/-! DEFINITION. The decoder (30_encoding.md R72 to R78), total on any words and rejecting by name, and the encoder (R82, R98). -/

namespace Sys2Proof

/-- Why an instruction word decodes to nothing (30_encoding.md R75): the two decode faults, and the model-only refusal of
excess mode digits (R78). -/
inductive HeaderReject where
  | unknownOpcode (selector : Int)
  | unknownMode (digit : Nat)
  | excessDigits
  deriving DecidableEq, Repr

/-- Why a list of words decodes to nothing: its first word does not decode, or the list ends before the operand words do.
The machine never meets `truncated`: the words after an instruction word always exist in memory (30_encoding.md R81;
log 16). -/
inductive DecodeReject where
  | header (r : HeaderReject)
  | truncated
  deriving DecidableEq, Repr

/-- What `Decode(w)` returns: "(op, mode[1..n])" (30_encoding.md R75). -/
structure Header where
  op    : Opcode
  modes : List Mode
  deriving DecidableEq, Repr

/-- `digit(w, k)`, "the k-th decimal digit counted from the least significant digit" (00_scope.md R10). -/
def digit (w k : Nat) : Nat := w / 10 ^ k % 10

/-- The operation selector `s = w rem 100`, the remainder with the sign of `w` (30_encoding.md R72). -/
def selectorOf (w : Word) : Int := w.toInt.tmod 100

/-- The mode field `M = w div 100`, which is not negative where the selector is legal (30_encoding.md R73, R75). -/
def modeField (w : Word) : Nat := (w.toInt.tdiv 100).toNat

/-- `Operation(s)`: the operation a selector selects, if it is legal (30_encoding.md R71, R77). -/
def Opcode.ofSelector (s : Int) : Option Opcode := Opcode.all.find? fun o => o.selector == s

/-- A mode digit's mode; the digits 3 to 9 have none (30_encoding.md R74). -/
def Mode.ofDigit : Nat → Option Mode
  | 0 => some .direct
  | 1 => some .immediate
  | 2 => some .relative
  | _ => none

/-- The modes of `n` operands from the digits of the mode field at positions `k`, `k + 1`, …, in operand order: the lowest
failing position is the one reported (30_encoding.md R75). -/
def decodeModes (field k : Nat) : Nat → Except HeaderReject (List Mode)
  | 0 => .ok []
  | n + 1 =>
    match Mode.ofDigit (digit field k) with
    | none => .error (.unknownMode (digit field k))
    | some m =>
      match decodeModes field (k + 1) n with
      | .error e => .error e
      | .ok ms => .ok (m :: ms)

/-- `Decode(w)` (30_encoding.md R75): the selector first, then each mode digit in operand order, then the excess digits. -/
def decodeHeader (x : ExcessDigits) (w : Word) : Except HeaderReject Header :=
  match Opcode.ofSelector (selectorOf w) with
  | none => .error (.unknownOpcode (selectorOf w))
  | some op =>
    match decodeModes (modeField w) 0 op.arity with
    | .error e => .error e
    | .ok ms =>
      if modeField w / 10 ^ op.arity ≠ 0 ∧ x = .refuse then .error .excessDigits else .ok ⟨op, ms⟩

/-- A mode with its operand word. -/
def Operand.ofMode : Mode → Word → Operand
  | .direct, n => .direct n
  | .immediate, n => .immediate n
  | .relative, n => .relative n

/-- Operand `k` (counted from 0) of a decoded header with its operand words. -/
def Header.operand (h : Header) (ws : List Word) (k : Nat) : Operand :=
  .ofMode (h.modes.getD k .direct) (ws.getD k 0)

/-- The instruction of a decoded header and its operand words, in order (30_encoding.md R70, R81). -/
def Header.toInstr (h : Header) (ws : List Word) : Instr :=
  match h.op with
  | .add => .add (h.operand ws 0) (h.operand ws 1) (h.operand ws 2)
  | .mul => .mul (h.operand ws 0) (h.operand ws 1) (h.operand ws 2)
  | .inp => .inp (h.operand ws 0)
  | .out => .out (h.operand ws 0)
  | .jt => .jt (h.operand ws 0) (h.operand ws 1)
  | .jf => .jf (h.operand ws 0) (h.operand ws 1)
  | .lt => .lt (h.operand ws 0) (h.operand ws 1) (h.operand ws 2)
  | .eq => .eq (h.operand ws 0) (h.operand ws 1) (h.operand ws 2)
  | .arb => .arb (h.operand ws 0)
  | .halt => .halt

/-- The instruction at the head of a list of words, with the words after it. -/
def decode (x : ExcessDigits) : List Word → Except DecodeReject (Instr × List Word)
  | [] => .error .truncated
  | w :: rest =>
    match decodeHeader x w with
    | .error r => .error (.header r)
    | .ok h =>
      if rest.length < h.op.arity then .error .truncated
      else .ok (h.toInstr (rest.take h.op.arity), rest.drop h.op.arity)

/-- The mode digit of a mode (30_encoding.md R74, R98). -/
def Mode.digit : Mode → Nat
  | .direct => 0
  | .immediate => 1
  | .relative => 2

/-- The mode field of a list of modes, operand 1 in its least significant digit (30_encoding.md R73). -/
def modesValue : List Mode → Nat
  | [] => 0
  | m :: ms => m.digit + 10 * modesValue ms

/-- The canonical instruction word `s + 100*m_1 + 1000*m_2 + 10000*m_3` (30_encoding.md R82, R98). -/
def encodeHeader (op : Opcode) (ms : List Mode) : Word :=
  BitVec.ofInt 64 (op.selector + 100 * modesValue ms)

/-- The canonical words of an instruction: its instruction word, then its operand words (30_encoding.md R98). -/
def encode (i : Instr) : List Word :=
  encodeHeader i.opcode (i.operands.map Operand.mode) :: i.operands.map Operand.word

/-- The four words a number of `nbits` bits holds, the first in its low 64 bits; bits above `nbits` are 0 (the host's
numbering of an instruction's bits; log 12). -/
def tableWords (nbits w : Nat) : List Word :=
  let v := w % 2 ^ nbits
  [BitVec.ofNat 64 v, BitVec.ofNat 64 (v / 2 ^ 64), BitVec.ofNat 64 (v / 2 ^ 128), BitVec.ofNat 64 (v / 2 ^ 192)]

/-- The instruction the decoder reads from an instruction whose bits are `w`, under the parameters this spec takes. -/
def decodeTableWord (nbits w : Nat) : Option Instr :=
  match decode Config.spec.excess (tableWords nbits w) with
  | .ok (i, _) => some i
  | .error _ => none

end Sys2Proof
end

