-- ==== Sys2Proof/Machine/Fetch.lean ====
section
/-! DEFINITION. Fetch, decode and operand-word fetch: the first part of a step (40_execution_cycle.md R100, R106 items 1 to 4),
and the placing of an instruction where the next step fetches it. -/

namespace Sys2Proof.Machine

open Sys2Proof

/-- The fault or refusal a rejected instruction word gives (30_encoding.md R75). -/
def stopOfReject : HeaderReject → FetchStop
  | .unknownOpcode s => .fault (.unknownOpcode s)
  | .unknownMode d => .fault (.unknownMode d)
  | .excessDigits => .refuse

/-- Operand word `k`: `MemRead(CheckAddr(pc + k), 1)` (40_execution_cycle.md R100). -/
def fetchOperandWord (s : State) (k : Nat) : Except BlockFault Word := do
  let a ← checkAddr (s.pc + k)
  memRead s a

/-- `n` operand words from position `k` on, "in order" (40_execution_cycle.md R100, R106 item 4). -/
def fetchOperandWords (s : State) (k : Nat) : Nat → Except BlockFault (List Word)
  | 0 => .ok []
  | n + 1 => do
    let w ← fetchOperandWord s k
    let ws ← fetchOperandWords s (k + 1) n
    .ok (w :: ws)

/-- The instruction at `pc`: fetch, decode, operand-word fetch, all from the current memory (40_execution_cycle.md R100;
10_state.md R33). -/
def fetchInstr (s : State) : Except FetchStop Instr :=
  match memRead s s.pc with
  | .error f => .error (.fault f)
  | .ok w =>
    match decodeHeader s.config.excess w with
    | .error r => .error (stopOfReject r)
    | .ok h =>
      match fetchOperandWords s 1 h.op.arity with
      | .error f => .error (.fault f)
      | .ok ws => .ok (h.toInstr ws)

/-- Words stored at consecutive addresses from `a` on, those beyond `ADDR_MAX` left out. -/
def placeWords (m : Memory) (a : Nat) : List Word → Memory
  | [] => m
  | w :: ws => if addrMax < a then m else placeWords (m.write a w) (a + 1) ws

/-- The state with an instruction's words at `pc` and a RESUME running in it: what LOAD of a program with these words and
RESUME come to, except that nothing else changes (log 13). -/
def placeInstr (s : State) (nbits w : Nat) : State :=
  { s with
    mem := placeWords s.mem s.pc (tableWords nbits w)
    status := .paused
    turn := .engine
    refused := false
    aborted := none }

end Sys2Proof.Machine
end

