-- ==== Sys2Proof/Machine/Protocol.lean ====
section
/-! DEFINITION. The host's commands (60_exceptions.md R174 to R185) and the host's move. RESUME and LOAD themselves are in
Machine/Ops.lean. -/

namespace Sys2Proof.Machine

open Sys2Proof

/-- `fail Host(reason)`: "the command is rejected and the host run aborts" (00_scope.md R13); the block's state is unchanged
(60_exceptions.md R181). -/
def State.abort (s : State) (e : HostError) : State := { s with aborted := some e }

/-- FEED(x) (60_exceptions.md R180, R181). The write makes no check: "cannot fault: dst was checked by IN" (DEDUCED, safe:
log 10). -/
def State.feed (s : State) (x : Word) : State :=
  match s.status with
  | .awaiting dst => (s.store dst x).setStatus .paused
  | .paused => s.abort .feedWhileNotAwaiting
  | .outputting _ => s.abort .feedWhileNotAwaiting
  | .exit _ => s.abort .feedWhileNotAwaiting

/-- INSPECT: a read-only port with no capacity check (60_exceptions.md R184). -/
def State.inspect (s : State) (a : Nat) : State :=
  if a ≤ addrMax then
    { s with replies := s.replies ++ [.inspected s.pc s.rb s.status (s.mem.read a)] }
  else s.abort .inspectNoAddress

/-- Whether every word of a program has an address that the store holds: LOAD's precondition under a bounded capacity, a
"host duty" (70_reset_and_hazards.md R192). -/
def programFits (cap : Capacity) (program : List Word) : Bool :=
  program.length ≤ addrMax + 1 &&
    match cap with
    | .unbounded => true
    | .bounded c => decide (program.length ≤ c)

/-- LOAD(P) as a command: a new instance in place of the old one, which the host abandons (70_reset_and_hazards.md R190 to
R192; DESIGN CHOICE, safe: log 17). -/
def State.loadCommand (s : State) (program : List Word) : State :=
  if programFits s.config.capacity program then s.load program else s.abort .programTooLong

/-- One command, an atomic transaction (60_exceptions.md R174). To abandon the instance needs no cleanup and changes nothing
(R185; DEDUCED, safe: log 20). -/
def issue (c : Command) (s : State) : State :=
  match c with
  | .load program => s.loadCommand program
  | .resume => s.resume
  | .feed x => s.feed x
  | .inspect a => s.inspect a
  | .abandon => s

/-- The host's move: it issues its next command. With none left it issues nothing and the block, in which nothing runs outside
a RESUME, stays as it is (60_exceptions.md R159; DEDUCED, safe: log 3). -/
def hostMove (s : State) : State :=
  match s.commands with
  | [] => s
  | c :: cs => issue c { s with commands := cs }

end Sys2Proof.Machine
end

