-- ==== Sys2Proof/Machine/Engine.lean ====
section
/-! DEFINITION. The engine's step (40_execution_cycle.md R100) inside a run (R110), and the choice of whose move it is. -/

namespace Sys2Proof.Machine

open Sys2Proof

/-- What follows an instruction: the test of the run loop (40_execution_cycle.md R110). -/
def afterInstr (o : Host.Outcome State Fault Refusal) : Host.Outcome State Fault Refusal :=
  match o with
  | .next t => .next t.returnIfSuspended
  | .fault r => .fault r
  | .refused r => .refused r

/-- `Step()` (40_execution_cycle.md R100), with what a raise or a refuse in it does (60_exceptions.md R166, R168). -/
def engineStep (s : State) : Host.Outcome State Fault Refusal :=
  match fetchInstr s with
  | .ok i => afterInstr (exec i s)
  | .error (.fault f) => .next (s.takeFault f).returnIfSuspended
  | .error .refuse => .next { s with refused := true }

/-- One step: of the engine inside a RESUME while the status is Paused, of the host between commands. A refused run and an
aborted host have no further state (60_exceptions.md R168, R181; DEDUCED, safe: log 5, log 6). -/
def advance (s : State) : Host.Outcome State Fault Refusal :=
  if s.refused then .refused .excessModeDigits
  else
    match s.aborted with
    | some e => .fault (.hostAborted e)
    | none =>
      match s.turn with
      | .host => .next (hostMove s)
      | .engine =>
        match s.status with
        | .paused => engineStep s
        | .awaiting _ => .next s.returnIfSuspended
        | .outputting _ => .next s.returnIfSuspended
        | .exit _ => .next s.returnIfSuspended

end Sys2Proof.Machine
end

