-- ==== Sys2Proof/Machine/Step.lean ====
section
/-! DEFINITION. The step of the machine, and the placing of an instruction where it fetches. -/

namespace Sys2Proof.Machine

/-- One step of the block and its host (Machine/Engine.lean). -/
def step (s : State) : Host.Outcome State Fault Refusal := advance s

/-- `s` with an instruction's bits stored at `pc` and a RESUME running, so that the next step runs it (log 12, log 13). -/
def State.withFetchWord (s : State) (nbits w : Nat) : State := placeInstr s nbits w

end Sys2Proof.Machine
end

