-- ==== Sys2Proof/Machine/Runs.lean ====
section
/-! DEFINITION. The end of a run and what it yields (60_exceptions.md R187). -/

namespace Sys2Proof.Machine

open Sys2Proof

/-- "the sequence of values of the Outputting statuses returned by RESUME, in order" (60_exceptions.md R187). -/
def outputsOf : List Reply → List Word
  | [] => []
  | .resumed (.outputting v) :: rs => v :: outputsOf rs
  | .resumed .paused :: rs => outputsOf rs
  | .resumed (.awaiting _) :: rs => outputsOf rs
  | .resumed (.exit _) :: rs => outputsOf rs
  | .inspected _ _ _ _ :: rs => outputsOf rs

/-- The reason a run ended for, if it has: "A run ends exactly when `status = Exit(reason)`"; a run the model refused and a
run whose host aborted have not ended (60_exceptions.md R187). -/
def State.endReason (s : State) : Option ExitReason :=
  if s.refused then none
  else
    match s.aborted with
    | some _ => none
    | none =>
      match s.status with
      | .exit r => some r
      | .paused => none
      | .awaiting _ => none
      | .outputting _ => none

/-- A run has ended (60_exceptions.md R187). -/
def State.ended (s : State) : Prop := ∃ r, s.endReason = some r

/-- "It ends cleanly when `reason = Halted`, and faulted otherwise" (60_exceptions.md R187). -/
def State.endedCleanly (s : State) : Prop := s.endReason = some .halted

/-- A run ended faulted (60_exceptions.md R187). -/
def State.endedFaulted (s : State) : Prop := ∃ f, s.endReason = some (.fault f)

/-- What a run yields: its outputs "together with the state at the end: `mem`, `pc`, `rb` and the exit reason"
(60_exceptions.md R187). -/
structure RunYield where
  outputs : List Word
  mem     : Memory
  pc      : Nat
  rb      : Word
  reason  : ExitReason
  deriving DecidableEq, Repr

/-- What the run of the instance yields, once it has ended. The replies are those of the instance's own run: LOAD starts
them anew (log 17). -/
def State.yielded (s : State) : Option RunYield :=
  s.endReason.map fun r => ⟨outputsOf s.replies, s.mem, s.pc, s.rb, r⟩

end Sys2Proof.Machine
end

