-- ==== Sys2Proof/Machine/StatusRegister.lean ====
section
/-! DEFINITION. The status register read by its fields and codes (10_state.md R27), and the evaluation result of a step
(40_execution_cycle.md R108). A field that is not valid for the kind has no value. -/

namespace Sys2Proof.Machine

open Sys2Proof

/-- `KIND` (10_state.md R27). -/
def Status.kind : Status → BitVec 2
  | .paused => 0
  | .awaiting _ => 1
  | .outputting _ => 2
  | .exit _ => 3

/-- `AWAIT_ADDR`, valid when `KIND = 1` (10_state.md R27). -/
def Status.awaitAddr : Status → Option Nat
  | .awaiting dst => some dst
  | .paused => none
  | .outputting _ => none
  | .exit _ => none

/-- `OUT_VALUE`, valid when `KIND = 2` (10_state.md R27). -/
def Status.outValue : Status → Option Word
  | .outputting v => some v
  | .paused => none
  | .awaiting _ => none
  | .exit _ => none

/-- The exit code of a fault (60_exceptions.md R160). -/
def BlockFault.exitCode : BlockFault → BitVec 3
  | .unknownOpcode _ => 1
  | .unknownMode _ => 2
  | .writeToImmediate => 3
  | .negativeAddress => 4
  | .overflow => 5
  | .capacityExceeded => 6

/-- The payload of a fault: "the selector `s` for code 1; the digit `d` for code 2; 0 otherwise" (10_state.md R27). -/
def BlockFault.exitDetail : BlockFault → Word
  | .unknownOpcode s => BitVec.ofInt 64 s
  | .unknownMode d => BitVec.ofNat 64 d
  | .writeToImmediate => 0
  | .negativeAddress => 0
  | .overflow => 0
  | .capacityExceeded => 0

/-- The exit code of a reason; 0 is `Halted` (10_state.md R27). -/
def ExitReason.code : ExitReason → BitVec 3
  | .halted => 0
  | .fault f => f.exitCode

/-- The detail of a reason (10_state.md R27). -/
def ExitReason.detail : ExitReason → Word
  | .halted => 0
  | .fault f => f.exitDetail

/-- `EXIT_CODE`, valid when `KIND = 3` (10_state.md R27). -/
def Status.exitCode : Status → Option (BitVec 3)
  | .exit r => some r.code
  | .paused => none
  | .awaiting _ => none
  | .outputting _ => none

/-- `EXIT_DETAIL`, valid when `KIND = 3` (10_state.md R27). -/
def Status.exitDetail : Status → Option Word
  | .exit r => some r.detail
  | .paused => none
  | .awaiting _ => none
  | .outputting _ => none

/-- The evaluation result, "read off the state the step leaves" (40_execution_cycle.md R108). -/
def Status.evalResult : Status → EvalResult
  | .paused => .continue
  | .awaiting _ => .awaitingInput
  | .outputting _ => .producingOutput
  | .exit .halted => .halted
  | .exit (.fault _) => .faulted

end Sys2Proof.Machine
end

