-- ==== Sys2Proof/WellFormed.lean ====
section
/-! DEFINITION. Well-formed instructions. Every operand word is legal and every mode decodes in every position (30_encoding.md
R79, R80), so the one thing the spec forbids an instruction is an Immediate write operand: "Immediate parameters are never
used as write destinations (violating this is a fault)" (40_execution_cycle.md R105). The decoder accepts such an
instruction and its execution faults, so neither Decode nor the machine asks for well-formedness (DESIGN CHOICE, safe:
log 19). -/

namespace Sys2Proof

/-- An operand fits its role unless it is an Immediate write operand (40_execution_cycle.md R105). -/
def Operand.fits (r : Role) (o : Operand) : Bool :=
  !(r == .write && o.mode == .immediate)

/-- The operands of `i` beside their roles (30_encoding.md R71). -/
def Instr.roled (i : Instr) : List (Role × Operand) := i.opcode.roles.zip i.operands

/-- No write operand of `i` is Immediate. -/
def Instr.wellFormed (i : Instr) : Bool :=
  i.roled.all fun ro => ro.2.fits ro.1

end Sys2Proof
end

