-- ==== Sys2Proof/Safety.lean ====
section
/-! DEFINITION. The terms claims use: the invariant of the machine, what an instruction and the host cannot touch, and what a
step may do to the status (10_state.md R29). -/

namespace Sys2Proof.Machine

open Sys2Proof

/-- A fault with the payload R160 gives it; `CapacityExceeded` only under a bounded capacity (60_exceptions.md R160, R167). -/
def BlockFault.legal (c : Config) : BlockFault → Prop
  | .unknownOpcode s => -99 ≤ s ∧ s ≤ 98 ∧ Opcode.ofSelector s = none
  | .unknownMode d => 3 ≤ d ∧ d ≤ 9
  | .writeToImmediate => True
  | .negativeAddress => True
  | .overflow => True
  | .capacityExceeded => c.capacity ≠ .unbounded

/-- A status whose payload is legal: a latched destination is an address the store holds (10_state.md R26, R27;
42_io.md R130), and a fault has the payload of its kind. -/
def Status.legal (c : Config) : Status → Prop
  | .paused => True
  | .awaiting dst => dst ≤ addrMax ∧ Capacity.holds c.capacity dst = true
  | .outputting _ => True
  | .exit .halted => True
  | .exit (.fault f) => f.legal c

/-- The invariant of the machine: what the spec's rules promise of every state a run reaches. -/
structure Inv (s : State) : Prop where
  /-- `pc` is "an integer in [0, ADDR_MAX]" (10_state.md R21). -/
  pc_address : s.pc ≤ addrMax
  /-- The memory is in its canonical form (log 8). -/
  mem_canonical : s.mem.wf
  /-- What the memory lists are addresses the store holds (20_memory.md R50, R51, R52). -/
  mem_held : ∀ c ∈ s.mem, c.1 ≤ addrMax ∧ Capacity.holds s.config.capacity c.1 = true
  /-- The status has a legal payload (10_state.md R26, R27). -/
  status_legal : s.status.legal s.config
  /-- The engine moves only while the status is Paused (40_execution_cycle.md R100, 60_exceptions.md R159). -/
  engine_paused : s.turn = .engine → s.status = .paused
  /-- Refusal happens only under `EXCESS_MODE_DIGITS = Refuse` (60_exceptions.md R168). -/
  refused_only : s.refused = true → s.config.excess = .refuse

/-- The next state of an outcome, if it is one. -/
def nextOf (o : Host.Outcome State Fault Refusal) : Option State :=
  match o with
  | .next t => some t
  | .fault _ => none
  | .refused _ => none

/-- The state of the engine's turn: a RESUME is running, and nothing stopped the run. -/
def State.running (s : State) : Prop :=
  s.refused = false ∧ s.aborted = none ∧ s.turn = .engine ∧ s.status = .paused

/-- The state of the host's turn with the command `c` next and `cs` after it, and nothing that stopped the run. -/
def State.hostIssues (s : State) (c : Command) (cs : List Command) : Prop :=
  s.refused = false ∧ s.aborted = none ∧ s.turn = .host ∧ s.commands = c :: cs

/-- Everything of the state that is not `pc`, `rb`, `status` or `mem` is the same: the mark, the parameters and the host's
side of the protocol. -/
def sameSurroundings (s t : State) : Prop :=
  t.refused = s.refused ∧ t.config = s.config ∧ t.turn = s.turn ∧ t.commands = s.commands ∧ t.replies = s.replies ∧
    t.aborted = s.aborted

/-- The architectural state, "exactly these four items" (10_state.md R20), is the same. -/
def sameBlock (s t : State) : Prop :=
  t.pc = s.pc ∧ t.rb = s.rb ∧ t.status = s.status ∧ t.mem = s.mem

/-- The status is unchanged, or the instruction faulted. -/
def statusKeptOrFaulted (s t : State) : Prop :=
  t.status = s.status ∨ ∃ f, t.status = .exit (.fault f)

/-- The fault that resolving an operand in its role raises, if it does (40_execution_cycle.md R101, R106 item 5). -/
def operandFault (s : State) (ro : Role × Operand) : Option BlockFault :=
  match ro.1 with
  | .read =>
    match resolveRead s ro.2 with
    | .ok _ => none
    | .error f => some f
  | .write =>
    match resolveWrite s ro.2 with
    | .ok _ => none
    | .error f => some f

/-- The state after a step of the engine that faulted: fault entry, and RESUME returns the exit to the host
(60_exceptions.md R166, R178). -/
def faultedRun (s : State) (f : BlockFault) : State :=
  { s with
    status := .exit (.fault f)
    turn := .host
    replies := s.replies ++ [.resumed (.exit (.fault f))] }

/-- An outcome with a change made to its next state. -/
def mapNext (g : State → State) (o : Host.Outcome State Fault Refusal) : Host.Outcome State Fault Refusal :=
  match o with
  | .next t => .next (g t)
  | .fault r => .fault r
  | .refused r => .refused r

/-- Every fetch that the instruction at `pc` makes from the address `a`, as its instruction word or as operand word `k`,
returns the word `w` (40_execution_cycle.md R100). -/
def fetches (s : State) (a : Nat) (w : Word) : Prop :=
  (a = s.pc → memRead s s.pc = .ok w) ∧ ∀ k, a = s.pc + k → fetchOperandWord s k = .ok w

/-- The words `ws` stand in memory from `pc` on, at addresses that exist and that the store holds. -/
def wordsAtPc (s : State) (ws : List Word) : Prop :=
  ∀ k (h : k < ws.length), s.pc + k ≤ addrMax ∧ Capacity.holds s.config.capacity (s.pc + k) = true ∧
    s.mem.read (s.pc + k) = ws[k]

end Sys2Proof.Machine
end

