-- ==== Sys2Proof/Certificates/Slice0/Obligations.lean ====
section
/-! DEFINITION. The statements for the provers. Each docstring names the rule of spec/ it formalises. -/

open Sys2Proof Sys2Proof.Machine

/-! ## Encoding and decoding -/

/-- 30_encoding.md R75, R82, R98: the decoder gives back every instruction from its canonical words, under either treatment of
excess digits, and leaves the words after it. No well-formedness is asked: an Immediate write operand decodes too (R80). -/
def Obligations.DecodeOfEncode : Prop :=
  ∀ (x : ExcessDigits) (i : Instr) (rest : List Word), decode x (encode i ++ rest) = .ok (i, rest)

/-- 30_encoding.md R78, R82, R83: where excess digits are refused, only the canonical words of an instruction decode to it. -/
def Obligations.EncodeOfCanonicalDecode : Prop :=
  ∀ (ws : List Word) (i : Instr) (rest : List Word), decode .refuse ws = .ok (i, rest) → ws = encode i ++ rest

/-- 30_encoding.md R98: the word of each instruction, with the mode digit of each operand form, and the spec's example. -/
def Obligations.EncodedWordsOfEachInstruction : Prop :=
  (∀ n : Word, (Operand.direct n).mode.digit = 0 ∧ (Operand.immediate n).mode.digit = 1 ∧
    (Operand.relative n).mode.digit = 2) ∧
  (∀ a b c : Operand,
    encode (.add a b c) = [BitVec.ofInt 64 (1 + 100 * a.mode.digit + 1000 * b.mode.digit + 10000 * c.mode.digit),
      a.word, b.word, c.word] ∧
    encode (.mul a b c) = [BitVec.ofInt 64 (2 + 100 * a.mode.digit + 1000 * b.mode.digit + 10000 * c.mode.digit),
      a.word, b.word, c.word] ∧
    encode (.inp c) = [BitVec.ofInt 64 (3 + 100 * c.mode.digit), c.word] ∧
    encode (.out a) = [BitVec.ofInt 64 (4 + 100 * a.mode.digit), a.word] ∧
    encode (.jt a b) = [BitVec.ofInt 64 (5 + 100 * a.mode.digit + 1000 * b.mode.digit), a.word, b.word] ∧
    encode (.jf a b) = [BitVec.ofInt 64 (6 + 100 * a.mode.digit + 1000 * b.mode.digit), a.word, b.word] ∧
    encode (.lt a b c) = [BitVec.ofInt 64 (7 + 100 * a.mode.digit + 1000 * b.mode.digit + 10000 * c.mode.digit),
      a.word, b.word, c.word] ∧
    encode (.eq a b c) = [BitVec.ofInt 64 (8 + 100 * a.mode.digit + 1000 * b.mode.digit + 10000 * c.mode.digit),
      a.word, b.word, c.word] ∧
    encode (.arb a) = [BitVec.ofInt 64 (9 + 100 * a.mode.digit), a.word] ∧
    encode .halt = [99]) ∧
  encode (.mul (.direct 4) (.immediate 3) (.direct 4)) = [1002, 4, 3, 4]

/-- Words written out from 30_encoding.md R71, R73 and R82 and the worked examples, and the instructions they stand for. -/
def Obligations.DecodedSampleWords : Prop :=
  decode .ignore [22201, 0, 1, 2] = .ok (.add (.relative 0) (.relative 1) (.relative 2), []) ∧
  decode .ignore [1002, 4, 3, 4, 33] = .ok (.mul (.direct 4) (.immediate 3) (.direct 4), [33]) ∧
  decode .ignore [203, 7] = .ok (.inp (.relative 7), []) ∧
  decode .ignore [104, 9] = .ok (.out (.immediate 9), []) ∧
  decode .ignore [2105, 1, 2] = .ok (.jt (.immediate 1) (.relative 2), []) ∧
  decode .ignore [1006, 101, 0] = .ok (.jf (.direct 101) (.immediate 0), []) ∧
  decode .ignore [1107, 5, 6, 20] = .ok (.lt (.immediate 5) (.immediate 6) (.direct 20), []) ∧
  decode .ignore [21008, 3, 4, 5] = .ok (.eq (.direct 3) (.immediate 4) (.relative 5), []) ∧
  decode .ignore [209, 0] = .ok (.arb (.relative 0), []) ∧
  decode .ignore [10099] = .ok (.halt, [])

/-- 30_encoding.md R77: the selector fault is raised exactly for an illegal selector, with the selector as payload; the
illegal selectors are 0, 10 to 98 and -99 to -1. -/
def Obligations.UnknownOpcodeExactlyForIllegalSelectors : Prop :=
  (∀ (x : ExcessDigits) (w : Word) (t : Int),
    decodeHeader x w = .error (.unknownOpcode t) ↔
      t = w.toInt.tmod 100 ∧ t ∉ ([1, 2, 3, 4, 5, 6, 7, 8, 9, 99] : List Int)) ∧
  (∀ w : Word, w.toInt.tmod 100 ∉ ([1, 2, 3, 4, 5, 6, 7, 8, 9, 99] : List Int) ↔
    w.toInt.tmod 100 = 0 ∨ (10 ≤ w.toInt.tmod 100 ∧ w.toInt.tmod 100 ≤ 98) ∨
      (-99 ≤ w.toInt.tmod 100 ∧ w.toInt.tmod 100 ≤ -1))

/-- 30_encoding.md R76: a negative instruction word, and the word 0, decode to nothing; a negative word is legal as data
and as an operand word. -/
def Obligations.NegativeWordsNeverDecode : Prop :=
  (∀ (x : ExcessDigits) (w : Word), w.toInt < 0 →
    ∃ s : Int, -99 ≤ s ∧ s ≤ 0 ∧ w.toInt.tmod 100 = s ∧ decodeHeader x w = .error (.unknownOpcode s)) ∧
  (∀ x : ExcessDigits, decodeHeader x (-1) = .error (.unknownOpcode (-1)) ∧
    decodeHeader x (-99) = .error (.unknownOpcode (-99)) ∧
    decodeHeader x (-100) = .error (.unknownOpcode 0) ∧ decodeHeader x 0 = .error (.unknownOpcode 0)) ∧
  (∀ (m : Memory) (a : Nat) (n : Word), n.toInt < 0 → (m.write a n).read a = n) ∧
  (∀ (x : ExcessDigits) (i : Instr) (rest : List Word), (∃ o ∈ i.operands, o.word.toInt < 0) →
    decode x (encode i ++ rest) = .ok (i, rest))

/-- 30_encoding.md R73: the mode digit of operand `k + 1` is decimal digit `k + 2` of the instruction word. -/
def Obligations.ModeDigitsAreWordDigits : Prop :=
  ∀ (w : Word) (k : Nat), 0 ≤ w.toInt → digit (modeField w) k = digit w.toInt.toNat (k + 2)

/-- 30_encoding.md R74, R75: the three modes' digits; with a legal selector, the mode fault is raised exactly when some operand's digit is 3 to 9, with
the digit of the lowest-numbered such operand. -/
def Obligations.UnknownModeReportsLowestOperand : Prop :=
  (Mode.ofDigit 0 = some .direct ∧ Mode.ofDigit 1 = some .immediate ∧ Mode.ofDigit 2 = some .relative) ∧
  ∀ (x : ExcessDigits) (w : Word) (op : Opcode), Opcode.ofSelector (w.toInt.tmod 100) = some op → ∀ d : Nat,
    (decodeHeader x w = .error (.unknownMode d) ↔
      ∃ k < op.arity, d = digit (modeField w) k ∧ 3 ≤ d ∧ d ≤ 9 ∧ ∀ j < k, digit (modeField w) j ≤ 2)

/-- 30_encoding.md R78, R82, case Ignore: excess digits have no effect on what a word decodes to. -/
def Obligations.ExcessDigitsIgnored : Prop :=
  ∀ (i : Instr) (e : Nat) (rest : List Word),
    i.opcode.selector + 100 * modesValue (i.operands.map Operand.mode) + 10 ^ (i.opcode.arity + 2) * (e : Int) ≤ wordMax →
    decode .ignore (BitVec.ofInt 64 (i.opcode.selector + 100 * modesValue (i.operands.map Operand.mode) +
      10 ^ (i.opcode.arity + 2) * (e : Int)) :: (i.operands.map Operand.word ++ rest)) = .ok (i, rest)

/-- 30_encoding.md R78, case Refuse: a nonzero excess digit is refused. -/
def Obligations.ExcessDigitsRefused : Prop :=
  ∀ (i : Instr) (e : Nat) (ws : List Word), 0 < e →
    i.opcode.selector + 100 * modesValue (i.operands.map Operand.mode) + 10 ^ (i.opcode.arity + 2) * (e : Int) ≤ wordMax →
    decode .refuse (BitVec.ofInt 64 (i.opcode.selector + 100 * modesValue (i.operands.map Operand.mode) +
      10 ^ (i.opcode.arity + 2) * (e : Int)) :: ws) = .error (.header .excessDigits)

/-- 30_encoding.md R75, R83: the words that decode are exactly those with a legal selector, legal mode digits, and no excess
digits where those are refused. -/
def Obligations.DecoderAcceptsExactly : Prop :=
  ∀ (x : ExcessDigits) (w : Word), (∃ h, decodeHeader x w = .ok h) ↔
    ∃ op, Opcode.ofSelector (w.toInt.tmod 100) = some op ∧ (∀ k < op.arity, digit (modeField w) k ≤ 2) ∧
      (modeField w / 10 ^ op.arity = 0 ∨ x = .ignore)

/-! ## Memory, checks and operands -/

/-- 20_memory.md R51, R52: MemRead and MemWrite, unbounded and bounded; a read gives the word last written, and a write
changes no other word. -/
def Obligations.MemoryPrimitives : Prop :=
  ∀ (s : State) (a : Nat) (v : Word),
    (s.config.capacity = .unbounded → memRead s a = .ok (s.mem.read a) ∧
      memWrite s a v = .ok { s with mem := s.mem.write a v }) ∧
    (∀ c, s.config.capacity = .bounded c → a < c → memRead s a = .ok (s.mem.read a) ∧
      memWrite s a v = .ok { s with mem := s.mem.write a v }) ∧
    (∀ c, s.config.capacity = .bounded c → c ≤ a → memRead s a = .error .capacityExceeded ∧
      memWrite s a v = .error .capacityExceeded) ∧
    (s.mem.write a v).read a = v ∧ ∀ b, b ≠ a → (s.mem.write a v).read b = s.mem.read b

/-- Two memories in canonical form with the same word at every address are the same data (log 8: the model's form of
20_memory.md R50, "a total function from addresses ... to words"). -/
def Obligations.CanonicalMemoriesAgree : Prop :=
  ∀ m n : Memory, m.wf → n.wf → (∀ a, m.read a = n.read a) → m = n

/-- 10_state.md R35 to R39, 70_reset_and_hazards.md R190: LOAD(P), as a command. That it stands in place of the old instance,
keeps the parameters and the commands and starts the record of replies anew is the model's choice (log 17), and so is that
the program must fit the machine (log 7). -/
def Obligations.LoadGivesProgramImage : Prop :=
  ∀ (s : State) (p : List Word) (cs : List Command), s.hostIssues (.load p) cs →
    programFits s.config.capacity p = true →
    ∃ t, step s = .next t ∧ t.pc = 0 ∧ t.rb = 0 ∧ t.status = .paused ∧ t.refused = false ∧
      (∀ i (h : i < p.length), t.mem.read i = p[i]) ∧ (∀ a, p.length ≤ a → t.mem.read a = 0) ∧
      t.config = s.config ∧ t.turn = .host ∧ t.commands = cs ∧ t.replies = [] ∧ t.aborted = none

/-- 40_execution_cycle.md R104: CheckWord and CheckAddr. -/
def Obligations.RangeChecks : Prop :=
  (∀ (p : OverflowPolicy) (v : Int), wordMin ≤ v → v ≤ wordMax → ∃ w : Word, w.toInt = v ∧ checkWord p v = .ok w) ∧
  (∀ v : Int, v < wordMin ∨ wordMax < v → checkWord .fault v = .error .overflow) ∧
  (∀ v : Int, v < wordMin ∨ wordMax < v → ∃ u : Word, checkWord .wrap v = .ok u ∧ (2 ^ 64 : Int) ∣ u.toInt - v ∧
    ∀ u' : Word, (2 ^ 64 : Int) ∣ u'.toInt - v → u' = u) ∧
  (∀ a : Nat, (addrMax < a → checkAddr a = .error .overflow) ∧ (a ≤ addrMax → checkAddr a = .ok a))

/-- 40_execution_cycle.md R103: the Relative address under each overflow policy. -/
def Obligations.RelativeAddresses : Prop :=
  ∀ (s : State) (x : Word),
    (s.config.overflow = .fault →
      (s.rb.toInt + x.toInt < 0 → relAddr s x = .error .negativeAddress) ∧
      ((addrMax : Int) < s.rb.toInt + x.toInt → relAddr s x = .error .overflow) ∧
      (0 ≤ s.rb.toInt + x.toInt → s.rb.toInt + x.toInt ≤ addrMax →
        relAddr s x = .ok (s.rb.toInt + x.toInt).toNat)) ∧
    (s.config.overflow = .wrap → ∀ e : Word, (2 ^ 64 : Int) ∣ e.toInt - (s.rb.toInt + x.toInt) →
      (e.toInt < 0 → relAddr s x = .error .negativeAddress) ∧ (0 ≤ e.toInt → relAddr s x = .ok e.toInt.toNat))

/-- 40_execution_cycle.md R101, R102, R105: what each operand form gives in each role; a write operand's result is an
address. -/
def Obligations.OperandResolution : Prop :=
  ∀ (s : State) (x : Word),
    resolveRead s (.immediate x) = .ok x ∧
    resolveWrite s (.immediate x) = .error .writeToImmediate ∧
    (x.toInt < 0 → resolveRead s (.direct x) = .error .negativeAddress ∧
      resolveWrite s (.direct x) = .error .negativeAddress) ∧
    (0 ≤ x.toInt → resolveRead s (.direct x) = memRead s x.toInt.toNat ∧
      resolveWrite s (.direct x) = .ok x.toInt.toNat) ∧
    (∀ a, relAddr s x = .ok a → resolveRead s (.relative x) = memRead s a ∧ resolveWrite s (.relative x) = .ok a) ∧
    (∀ f, relAddr s x = .error f → resolveRead s (.relative x) = .error f ∧ resolveWrite s (.relative x) = .error f) ∧
    (∀ o a, resolveWrite s o = .ok a → a ≤ addrMax)

/-- 40_execution_cycle.md R106 item 5, 60_exceptions.md R166: the first operand, in operand order, whose resolution faults
gives the instruction that fault. -/
def Obligations.FirstOperandFaultIsTaken : Prop :=
  ∀ (i : Instr) (s : State) (f : BlockFault), i.roled.findSome? (operandFault s) = some f →
    exec i s = .next { s with status := .exit (.fault f) }

/-! ## The result of each instruction -/

/-- 41_arithmetic_compare.md R120: ADD completes with the exact sum where it is a word, and with the wrapped sum under
`Wrap`. -/
def Obligations.AddStoresSum : Prop :=
  ∀ (s : State) (a b c : Operand) (va vb r : Word) (dst : Nat),
    resolveRead s a = .ok va → resolveRead s b = .ok vb → resolveWrite s c = .ok dst →
    s.pc + 4 ≤ addrMax → Capacity.holds s.config.capacity dst = true →
    (r.toInt = va.toInt + vb.toInt ∨
      (s.config.overflow = .wrap ∧ (2 ^ 64 : Int) ∣ r.toInt - (va.toInt + vb.toInt))) →
    exec (.add a b c) s = .next { s with mem := s.mem.write dst r, pc := s.pc + 4 }

/-- 41_arithmetic_compare.md R121: MUL, likewise with the product. -/
def Obligations.MulStoresProduct : Prop :=
  ∀ (s : State) (a b c : Operand) (va vb r : Word) (dst : Nat),
    resolveRead s a = .ok va → resolveRead s b = .ok vb → resolveWrite s c = .ok dst →
    s.pc + 4 ≤ addrMax → Capacity.holds s.config.capacity dst = true →
    (r.toInt = va.toInt * vb.toInt ∨
      (s.config.overflow = .wrap ∧ (2 ^ 64 : Int) ∣ r.toInt - va.toInt * vb.toInt)) →
    exec (.mul a b c) s = .next { s with mem := s.mem.write dst r, pc := s.pc + 4 }

/-- 41_arithmetic_compare.md R122: LT stores 1 or 0 by the signed order of the values. -/
def Obligations.LtStoresSignedComparison : Prop :=
  ∀ (s : State) (a b c : Operand) (va vb : Word) (dst : Nat),
    resolveRead s a = .ok va → resolveRead s b = .ok vb → resolveWrite s c = .ok dst →
    s.pc + 4 ≤ addrMax → Capacity.holds s.config.capacity dst = true →
    exec (.lt a b c) s =
      .next { s with mem := s.mem.write dst (if va.toInt < vb.toInt then 1 else 0), pc := s.pc + 4 }

/-- 41_arithmetic_compare.md R123: EQ stores 1 or 0 by the equality of the values. -/
def Obligations.EqStoresEquality : Prop :=
  ∀ (s : State) (a b c : Operand) (va vb : Word) (dst : Nat),
    resolveRead s a = .ok va → resolveRead s b = .ok vb → resolveWrite s c = .ok dst →
    s.pc + 4 ≤ addrMax → Capacity.holds s.config.capacity dst = true →
    exec (.eq a b c) s =
      .next { s with mem := s.mem.write dst (if va.toInt = vb.toInt then 1 else 0), pc := s.pc + 4 }

/-- 42_io.md R130: IN advances `pc` and latches its destination, writing no memory. -/
def Obligations.InLatchesDestination : Prop :=
  ∀ (s : State) (c : Operand) (dst : Nat), resolveWrite s c = .ok dst →
    Capacity.holds s.config.capacity dst = true → s.pc + 2 ≤ addrMax →
    exec (.inp c) s = .next { s with pc := s.pc + 2, status := .awaiting dst }

/-- 42_io.md R131: OUT advances `pc` and produces the operand's value in the status. -/
def Obligations.OutProducesValue : Prop :=
  ∀ (s : State) (a : Operand) (va : Word), resolveRead s a = .ok va → s.pc + 2 ≤ addrMax →
    exec (.out a) s = .next { s with pc := s.pc + 2, status := .outputting va }

/-- 43_control.md R142: JT jumps to the value of operand 2 when operand 1 is not 0, and goes on at `pc + 3` when it is. -/
def Obligations.JtBranches : Prop :=
  ∀ (s : State) (a b : Operand) (va vb : Word), resolveRead s a = .ok va → resolveRead s b = .ok vb →
    (va.toInt ≠ 0 → 0 ≤ vb.toInt → exec (.jt a b) s = .next { s with pc := vb.toInt.toNat }) ∧
    (va.toInt = 0 → s.pc + 3 ≤ addrMax → exec (.jt a b) s = .next { s with pc := s.pc + 3 })

/-- 43_control.md R143: JF jumps exactly when operand 1 is 0. -/
def Obligations.JfBranches : Prop :=
  ∀ (s : State) (a b : Operand) (va vb : Word), resolveRead s a = .ok va → resolveRead s b = .ok vb →
    (va.toInt = 0 → 0 ≤ vb.toInt → exec (.jf a b) s = .next { s with pc := vb.toInt.toNat }) ∧
    (va.toInt ≠ 0 → s.pc + 3 ≤ addrMax → exec (.jf a b) s = .next { s with pc := s.pc + 3 })

/-- 43_control.md R141: `JumpTarget`; a taken jump with a negative target faults in place, and a jump that is not taken does
not check its target. -/
def Obligations.JumpTargetsAreChecked : Prop :=
  (∀ b : Word, (b.toInt < 0 → jumpTarget b = .error .negativeAddress) ∧
    (0 ≤ b.toInt → jumpTarget b = .ok b.toInt.toNat ∧ b.toInt.toNat ≤ addrMax)) ∧
  ∀ (s : State) (a b : Operand) (va vb : Word), resolveRead s a = .ok va → resolveRead s b = .ok vb → vb.toInt < 0 →
    (va.toInt ≠ 0 → exec (.jt a b) s = .next { s with status := .exit (.fault .negativeAddress) }) ∧
    (va.toInt = 0 → exec (.jf a b) s = .next { s with status := .exit (.fault .negativeAddress) }) ∧
    (va.toInt = 0 → s.pc + 3 ≤ addrMax → exec (.jt a b) s = .next { s with pc := s.pc + 3 }) ∧
    (va.toInt ≠ 0 → s.pc + 3 ≤ addrMax → exec (.jf a b) s = .next { s with pc := s.pc + 3 })

/-- 44_relative_base.md R150: ARB adds its operand's value, resolved with the old base, to the relative base. -/
def Obligations.ArbAdjustsRelativeBase : Prop :=
  ∀ (s : State) (a : Operand) (va nrb : Word), resolveRead s a = .ok va → s.pc + 2 ≤ addrMax →
    (nrb.toInt = s.rb.toInt + va.toInt ∨
      (s.config.overflow = .wrap ∧ (2 ^ 64 : Int) ∣ nrb.toInt - (s.rb.toInt + va.toInt))) →
    exec (.arb a) s = .next { s with rb := nrb, pc := s.pc + 2 }

/-- 43_control.md R144: HALT exits and leaves `pc` where it is. -/
def Obligations.HaltExitsInPlace : Prop :=
  ∀ s : State, exec .halt s = .next { s with status := .exit .halted }

/-- 41_arithmetic_compare.md R120, R121, 44_relative_base.md R150, 60_exceptions.md R165: under `Fault`, a sum, product or new
base outside the word range raises `Overflow`. -/
def Obligations.ArithmeticOverflowFaults : Prop :=
  ∀ (s : State) (a b c : Operand) (va vb : Word) (dst : Nat), s.config.overflow = .fault →
    resolveRead s a = .ok va → resolveRead s b = .ok vb → resolveWrite s c = .ok dst →
    (¬ inWord (va.toInt + vb.toInt) → exec (.add a b c) s = .next { s with status := .exit (.fault .overflow) }) ∧
    (¬ inWord (va.toInt * vb.toInt) → exec (.mul a b c) s = .next { s with status := .exit (.fault .overflow) }) ∧
    (¬ inWord (s.rb.toInt + va.toInt) → exec (.arb a) s = .next { s with status := .exit (.fault .overflow) })

/-- 10_state.md R23, 40_execution_cycle.md R104: a next `pc` above `ADDR_MAX` raises `Overflow`, and never wraps. -/
def Obligations.NextPcOverflowFaults : Prop :=
  ∀ (s : State) (a b c : Operand) (va vb : Word) (dst : Nat),
    resolveRead s a = .ok va → resolveRead s b = .ok vb → resolveWrite s c = .ok dst →
    (addrMax < s.pc + 4 →
      exec (.add a b c) s = .next { s with status := .exit (.fault .overflow) } ∧
      exec (.mul a b c) s = .next { s with status := .exit (.fault .overflow) } ∧
      exec (.lt a b c) s = .next { s with status := .exit (.fault .overflow) } ∧
      exec (.eq a b c) s = .next { s with status := .exit (.fault .overflow) }) ∧
    (addrMax < s.pc + 3 →
      (va.toInt = 0 → exec (.jt a b) s = .next { s with status := .exit (.fault .overflow) }) ∧
      (va.toInt ≠ 0 → exec (.jf a b) s = .next { s with status := .exit (.fault .overflow) })) ∧
    (addrMax < s.pc + 2 →
      exec (.out a) s = .next { s with status := .exit (.fault .overflow) } ∧
      exec (.arb a) s = .next { s with status := .exit (.fault .overflow) } ∧
      (Capacity.holds s.config.capacity dst = true →
        exec (.inp c) s = .next { s with status := .exit (.fault .overflow) }))

/-- 60_exceptions.md R167, 42_io.md R130: a destination the store does not hold raises `CapacityExceeded`, in IN before the
check of the next `pc`. -/
def Obligations.BeyondCapacityFaults : Prop :=
  ∀ (s : State) (a b c : Operand) (va vb : Word) (dst cap : Nat), s.config.capacity = .bounded cap → cap ≤ dst →
    resolveRead s a = .ok va → resolveRead s b = .ok vb → resolveWrite s c = .ok dst →
    exec (.inp c) s = .next { s with status := .exit (.fault .capacityExceeded) } ∧
    (s.pc + 4 ≤ addrMax →
      (inWord (va.toInt + vb.toInt) ∨ s.config.overflow = .wrap →
        exec (.add a b c) s = .next { s with status := .exit (.fault .capacityExceeded) }) ∧
      (inWord (va.toInt * vb.toInt) ∨ s.config.overflow = .wrap →
        exec (.mul a b c) s = .next { s with status := .exit (.fault .capacityExceeded) }) ∧
      exec (.lt a b c) s = .next { s with status := .exit (.fault .capacityExceeded) } ∧
      exec (.eq a b c) s = .next { s with status := .exit (.fault .capacityExceeded) })

/-! ## Frames -/

/-- 40_execution_cycle.md R107, 10_state.md R24, R25: what ADD, MUL, LT and EQ leave unchanged. The address stored to is the
one their write operand resolves to. -/
def Obligations.StoringFrame : Prop :=
  ∀ (i : Instr) (a b c : Operand) (s t : State),
    i = .add a b c ∨ i = .mul a b c ∨ i = .lt a b c ∨ i = .eq a b c → exec i s = .next t →
    t.rb = s.rb ∧ statusKeptOrFaulted s t ∧ sameSurroundings s t ∧
    (∀ dst, resolveWrite s c = .ok dst → ∀ x, x ≠ dst → t.mem.read x = s.mem.read x) ∧
    (∀ f, resolveWrite s c = .error f → ∀ x, t.mem.read x = s.mem.read x)

/-- 43_control.md R140 to R143: what JT and JF leave unchanged: everything but `pc`, and the status where they fault. -/
def Obligations.JumpFrame : Prop :=
  ∀ (i : Instr) (a b : Operand) (s t : State), i = .jt a b ∨ i = .jf a b → exec i s = .next t →
    t.rb = s.rb ∧ statusKeptOrFaulted s t ∧ sameSurroundings s t ∧ ∀ x, t.mem.read x = s.mem.read x

/-- 44_relative_base.md R150: what ARB leaves unchanged: everything but `rb` and `pc`, and the status where it faults. -/
def Obligations.ArbFrame : Prop :=
  ∀ (a : Operand) (s t : State), exec (.arb a) s = .next t →
    statusKeptOrFaulted s t ∧ sameSurroundings s t ∧ (t.status ≠ s.status → t.rb = s.rb ∧ t.pc = s.pc) ∧
    ∀ x, t.mem.read x = s.mem.read x

/-- 42_io.md R130, R131, 43_control.md R144: what IN, OUT and HALT leave unchanged: everything but `pc` and `status`, and
HALT leaves `pc` too. -/
def Obligations.SuspendingFrame : Prop :=
  ∀ (i : Instr) (o : Operand) (s t : State), i = .inp o ∨ i = .out o ∨ i = .halt → exec i s = .next t →
    t.rb = s.rb ∧ sameSurroundings s t ∧ (i = .halt → t.pc = s.pc) ∧ ∀ x, t.mem.read x = s.mem.read x

/-- 60_exceptions.md R166: a step that raises a fault sets the status to Exit with it and changes nothing else of the block,
whether fetch, decode, resolution or execution raised it; the run stops and RESUME returns the exit. That it returns in the
same step of the model is the model's choice (log 4). The fault is never cleared; LOAD makes a new instance, which stands in
place of the old one (log 17). -/
def Obligations.FaultsArePrecise : Prop :=
  (∀ (s t : State) (f : BlockFault), s.running → step s = .next t → t.status = .exit (.fault f) →
    t.pc = s.pc ∧ t.rb = s.rb ∧ t.mem = s.mem ∧ t.turn = .host ∧ t.replies = s.replies ++ [.resumed (.exit (.fault f))] ∧
      t.refused = s.refused ∧ t.config = s.config ∧ t.commands = s.commands ∧ t.aborted = s.aborted) ∧
  ∀ (s t : State) (f : BlockFault), s.status = .exit (.fault f) → step s = .next t →
    t.status = .exit (.fault f) ∨ ∃ p cs, s.hostIssues (.load p) cs

/-- 40_execution_cycle.md R105: an Immediate operand used as a write target raises `WriteToImmediate` when it is resolved, and
its instruction has no effect but the fault: that one, unless an operand before it faults first. -/
def Obligations.ImmediateWriteNeverCompletes : Prop :=
  (∀ (s : State) (x : Word), resolveWrite s (.immediate x) = .error .writeToImmediate) ∧
  ∀ (i : Instr) (s : State), i.wellFormed = false →
    ∃ f, exec i s = .next { s with status := .exit (.fault f) } ∧
      ((∀ o, (Role.read, o) ∈ i.roled → ∃ v, resolveRead s o = .ok v) → f = .writeToImmediate)

/-! ## The step -/

/-- 40_execution_cycle.md R100, R110: when the words at `pc` decode to `i`, a step of a running RESUME is `exec i`; a run goes
on while the status is Paused, and else RESUME returns the status to the host, in the same step by the model's choice
(log 4). -/
def Obligations.StepRunsDecodedInstruction : Prop :=
  ∀ (s : State) (ws : List Word) (i : Instr), s.running → decode s.config.excess ws = .ok (i, []) → wordsAtPc s ws →
    step s = afterInstr (exec i s) ∧
    ∀ t, exec i s = .next t →
      (t.status = .paused → step s = .next t) ∧
      (t.status ≠ .paused →
        step s = .next { t with turn := .host, replies := t.replies ++ [.resumed t.status] })

/-- 40_execution_cycle.md R106 items 1, 2 and 4: the faults of fetch and decode, in their order. That RESUME returns the exit
in the same step of the model is the model's choice (log 4). -/
def Obligations.FetchFaultsInOrder : Prop :=
  ∀ s : State, s.running →
    (Capacity.holds s.config.capacity s.pc = false → step s = .next (faultedRun s .capacityExceeded)) ∧
    (Capacity.holds s.config.capacity s.pc = true →
      (∀ t, decodeHeader s.config.excess (s.mem.read s.pc) = .error (.unknownOpcode t) →
        step s = .next (faultedRun s (.unknownOpcode t))) ∧
      (∀ d, decodeHeader s.config.excess (s.mem.read s.pc) = .error (.unknownMode d) →
        step s = .next (faultedRun s (.unknownMode d))) ∧
      (∀ h k, decodeHeader s.config.excess (s.mem.read s.pc) = .ok h → 1 ≤ k → k ≤ h.op.arity →
        (∀ j, 1 ≤ j → j < k → s.pc + j ≤ addrMax ∧ Capacity.holds s.config.capacity (s.pc + j) = true) →
        (addrMax < s.pc + k → step s = .next (faultedRun s .overflow)) ∧
        (s.pc + k ≤ addrMax → Capacity.holds s.config.capacity (s.pc + k) = false →
          step s = .next (faultedRun s .capacityExceeded))))

/-- 60_exceptions.md R168, 10_state.md R34: a refused word sets the mark and changes nothing else, and a refused run goes no
further. The mark is set in one step and the refusal answered by the next: the model's choice (log 5). -/
def Obligations.RefusalSetsMarkAndStops : Prop :=
  (∀ s : State, s.running → Capacity.holds s.config.capacity s.pc = true →
    decodeHeader s.config.excess (s.mem.read s.pc) = .error .excessDigits → step s = .next { s with refused := true }) ∧
  (∀ s : State, s.refused = true → step s = .refused .excessModeDigits)

/-- 60_exceptions.md R168: "Under `Ignore`, refusal never happens." -/
def Obligations.NoRefusalUnderIgnore : Prop :=
  ∀ s : State, s.config.excess = .ignore → s.refused = false →
    (∀ t, step s = .next t → t.refused = false) ∧ ∀ r, step s ≠ .refused r

/-- 10_state.md R24: "Only ARB writes it"; LOAD makes a new instance, which stands in place of the old one (log 17). -/
def Obligations.OnlyArbWritesRelativeBase : Prop :=
  ∀ s t : State, step s = .next t → t.rb ≠ s.rb →
    (s.running ∧ ∃ a, fetchInstr s = .ok (.arb a)) ∨ ∃ p cs, s.hostIssues (.load p) cs

/-- 40_execution_cycle.md R107, 20_memory.md R69: memory changes only by ADD, MUL, LT and EQ, and by the host's FEED and its
LOAD of a new instance, which stands in place of the old one (log 17). -/
def Obligations.MemoryChangesOnlyByStores : Prop :=
  ∀ s t : State, step s = .next t → t.mem ≠ s.mem →
    (s.running ∧ ∃ a b c, fetchInstr s = .ok (.add a b c) ∨ fetchInstr s = .ok (.mul a b c) ∨
      fetchInstr s = .ok (.lt a b c) ∨ fetchInstr s = .ok (.eq a b c)) ∨
    (∃ x cs dst, s.hostIssues (.feed x) cs ∧ s.status = .awaiting dst ∧ t.mem = s.mem.write dst x) ∨
    ∃ p cs, s.hostIssues (.load p) cs

/-- 20_memory.md R58: an instruction "writes at most one word". -/
def Obligations.AtMostOneWordWritten : Prop :=
  ∀ s t : State, s.running → step s = .next t → ∀ x y,
    t.mem.read x ≠ s.mem.read x → t.mem.read y ≠ s.mem.read y → x = y

/-- 10_state.md R29: the transitions of `status`. How a RESUME is cut into steps is the model's choice (log 4), and so is that
LOAD's new instance stands in place of the old one (log 17). -/
def Obligations.LegalStatusTransitions : Prop :=
  ∀ s t : State, step s = .next t → t.status ≠ s.status →
    (s.running ∧
      ((∃ c dst, fetchInstr s = .ok (.inp c) ∧ resolveWrite s c = .ok dst ∧ t.status = .awaiting dst) ∨
        (∃ a v, fetchInstr s = .ok (.out a) ∧ resolveRead s a = .ok v ∧ t.status = .outputting v) ∨
        (fetchInstr s = .ok .halt ∧ t.status = .exit .halted) ∨
        ∃ f, t.status = .exit (.fault f))) ∨
    (∃ v cs, s.hostIssues .resume cs ∧ s.status = .outputting v ∧ t.status = .paused ∧ t.turn = .engine) ∨
    (∃ dst x cs, s.hostIssues (.feed x) cs ∧ s.status = .awaiting dst ∧ t.status = .paused) ∨
    ∃ p cs, s.hostIssues (.load p) cs ∧ t.status = .paused

/-- 10_state.md R30, 60_exceptions.md R187: once the status is Exit, no sequence of commands changes the instance or what its
run yields, however many; a host that aborts has a run that has not ended. LOAD is left out: it makes a new instance, which
in the model stands in place of the old one (log 17). -/
def Obligations.ExitIsTerminal : Prop :=
  ∀ (n : Nat) (s t : State) (r : ExitReason), s.status = .exit r → s.turn = .host →
    (∀ p, Command.load p ∉ s.commands) → Sys2Proof.core.run n s = .next t →
      sameBlock s t ∧ t.refused = s.refused ∧ (t.aborted = none → t.yielded = s.yielded) ∧
      (t.aborted ≠ none → ¬ t.ended ∧ t.yielded = none)

/-- 60_exceptions.md R172, R178, R187: control returns to the host only at IN, OUT, HALT and a fault, with the new status; `pc`
points past IN and OUT and at HALT and a faulting instruction; the value of an OUT is the next output of the run, and the
run ends exactly at an exit. That RESUME returns in the suspending step is the model's choice (log 4). -/
def Obligations.ControlReturnsOnlyAtBoundaries : Prop :=
  ∀ s t : State, s.running → step s = .next t →
    (t.turn = .host ↔ t.status ≠ .paused) ∧
    (∀ dst, t.status = .awaiting dst → (∃ c, fetchInstr s = .ok (.inp c)) ∧ t.pc = s.pc + 2) ∧
    (∀ v, t.status = .outputting v → (∃ a, fetchInstr s = .ok (.out a)) ∧ t.pc = s.pc + 2) ∧
    (∀ r, t.status = .exit r → t.pc = s.pc) ∧
    (t.status = .exit .halted → fetchInstr s = .ok .halt) ∧
    (t.status ≠ .paused → t.replies = s.replies ++ [.resumed t.status]) ∧
    outputsOf t.replies = outputsOf s.replies ++ t.status.outValue.toList ∧
    (∀ r, t.endReason = some r ↔ t.status = .exit r)

/-- 20_memory.md R67, 70_reset_and_hazards.md R196: a word written by ADD, MUL, LT or EQ, at any address, is the word the next
fetch from that address returns, as an instruction word or as an operand word; and so is a word written by FEED, which
in the model takes a step, as the RESUME after it does (log 4), and makes no check (log 10). -/
def Obligations.FetchSeesEarlierWrites : Prop :=
  (∀ (s : State) (i : Instr) (a b c : Operand) (va vb r : Word) (dst : Nat), s.running → fetchInstr s = .ok i →
    resolveRead s a = .ok va → resolveRead s b = .ok vb → resolveWrite s c = .ok dst →
    s.pc + 4 ≤ addrMax → Capacity.holds s.config.capacity dst = true →
    ((i = .add a b c ∧ (r.toInt = va.toInt + vb.toInt ∨
        (s.config.overflow = .wrap ∧ (2 ^ 64 : Int) ∣ r.toInt - (va.toInt + vb.toInt)))) ∨
      (i = .mul a b c ∧ (r.toInt = va.toInt * vb.toInt ∨
        (s.config.overflow = .wrap ∧ (2 ^ 64 : Int) ∣ r.toInt - va.toInt * vb.toInt))) ∨
      (i = .lt a b c ∧ r = if va.toInt < vb.toInt then 1 else 0) ∨
      (i = .eq a b c ∧ r = if va.toInt = vb.toInt then 1 else 0)) →
    ∃ t, step s = .next t ∧ t.running ∧ t.pc = s.pc + 4 ∧ fetches t dst r) ∧
  (∀ (s : State) (x : Word) (cs : List Command) (dst : Nat), s.hostIssues (.feed x) (.resume :: cs) →
    s.status = .awaiting dst → dst ≤ addrMax → Capacity.holds s.config.capacity dst = true →
    ∃ t u, step s = .next t ∧ step t = .next u ∧ u.running ∧ u.pc = s.pc ∧ fetches u dst x)

/-- 00_scope.md R8 and log 1: the parameters are fixed for the machine. -/
def Obligations.ConfigNeverChanges : Prop :=
  ∀ s t : State, step s = .next t → t.config = s.config

/-- 10_state.md R32, 40_execution_cycle.md R111: while a RESUME runs, the engine reads neither what the host received nor what
it will issue (both of which the model keeps in its state: log 2). -/
def Obligations.EngineIgnoresHost : Prop :=
  ∀ (s : State) (cs : List Command) (rs : List Reply), s.turn = .engine →
    step { s with commands := cs, replies := rs ++ s.replies } =
      mapNext (fun t => { t with commands := cs, replies := rs ++ t.replies }) (step s)

/-! ## The host's commands -/

/-- 60_exceptions.md R175, R176, R178: RESUME in each status. That it takes a step of its own is the model's choice
(log 4). -/
def Obligations.ResumeFromEachStatus : Prop :=
  ∀ (s : State) (cs : List Command), s.hostIssues .resume cs →
    (∀ dst, s.status = .awaiting dst →
      step s = .next { s with commands := cs, replies := s.replies ++ [.resumed (.awaiting dst)] }) ∧
    (∀ r, s.status = .exit r →
      step s = .next { s with commands := cs, replies := s.replies ++ [.resumed (.exit r)] }) ∧
    (∀ v, s.status = .outputting v → step s = .next { s with commands := cs, status := .paused, turn := .engine }) ∧
    (s.status = .paused → step s = .next { s with commands := cs, turn := .engine })

/-- 60_exceptions.md R180: FEED(x) in Awaiting(dst). That the model's FEED writes with no check is its reading of R180's
"cannot fault" (log 10); the last clause says why no check is missed. -/
def Obligations.FeedCompletesInput : Prop :=
  ∀ (s : State) (x : Word) (cs : List Command) (dst : Nat), s.hostIssues (.feed x) cs → s.status = .awaiting dst →
    step s = .next { s with commands := cs, mem := s.mem.write dst x, status := .paused } ∧
    (Inv s → memWrite s dst x = .ok { s with mem := s.mem.write dst x })

/-- 60_exceptions.md R181: FEED outside Awaiting is rejected, changes nothing of the block, and aborts the host's run for
good. That the abort is recorded by one step and answered by the next is the model's choice (log 6). -/
def Obligations.FeedOutsideAwaitingAborts : Prop :=
  ∀ (s : State) (x : Word) (cs : List Command), s.hostIssues (.feed x) cs → (∀ dst, s.status ≠ .awaiting dst) →
    ∃ t, step s = .next t ∧ sameBlock s t ∧ t.refused = s.refused ∧ t.aborted = some .feedWhileNotAwaiting ∧
      step t = .fault (.hostAborted .feedWhileNotAwaiting)

/-- 60_exceptions.md R184: INSPECT of an address reads with no side effect and no capacity check; that a command reads one word
is the model's choice (log 18). R185 asks for no cleanup of an abandoned instance; that abandoning is a command, which
changes nothing, is the model's choice (log 20). -/
def Obligations.InspectReadsOnly : Prop :=
  (∀ (s : State) (a : Nat) (cs : List Command), s.hostIssues (.inspect a) cs → a ≤ addrMax →
    step s = .next { s with
      commands := cs, replies := s.replies ++ [.inspected s.pc s.rb s.status (s.mem.read a)] }) ∧
  (∀ (s : State) (cs : List Command), s.hostIssues .abandon cs → step s = .next { s with commands := cs })

/-- 60_exceptions.md R159: "A FEED followed by a RESUME wakes it"; all state survives the wait but the word fed. That each of
the two commands takes one step, after which the block runs, is the model's choice (log 4), and so is that FEED writes with
no check (log 10). -/
def Obligations.FeedAndResumeWake : Prop :=
  ∀ (s : State) (x : Word) (cs : List Command) (dst : Nat), s.hostIssues (.feed x) (.resume :: cs) →
    s.status = .awaiting dst →
    ∃ t, Sys2Proof.core.run 2 s = .next t ∧ t.running ∧ t.pc = s.pc ∧ t.rb = s.rb ∧ t.mem.read dst = x ∧
      (∀ a, a ≠ dst → t.mem.read a = s.mem.read a) ∧ t.config = s.config ∧ t.commands = cs ∧ t.replies = s.replies

/-! ## The status register, reset and the invariant -/

/-- 10_state.md R27: the fields of the status register with their codes and their legal values, each only where it is valid.
That a latched destination is an address is said of states that meet the invariant. -/
def Obligations.StatusRegisterFields : Prop :=
  (Status.paused.kind = 0 ∧ Status.paused.awaitAddr = none ∧ Status.paused.outValue = none ∧
    Status.paused.exitCode = none ∧ Status.paused.exitDetail = none) ∧
  (∀ dst, (Status.awaiting dst).kind = 1 ∧ (Status.awaiting dst).awaitAddr = some dst ∧
    (Status.awaiting dst).outValue = none ∧ (Status.awaiting dst).exitCode = none ∧
    (Status.awaiting dst).exitDetail = none) ∧
  (∀ v, (Status.outputting v).kind = 2 ∧ (Status.outputting v).outValue = some v ∧
    (Status.outputting v).awaitAddr = none ∧ (Status.outputting v).exitCode = none ∧
    (Status.outputting v).exitDetail = none) ∧
  (∀ r, (Status.exit r).kind = 3 ∧ (Status.exit r).awaitAddr = none ∧ (Status.exit r).outValue = none) ∧
  ((Status.exit .halted).exitCode = some 0 ∧ (Status.exit .halted).exitDetail = some 0) ∧
  (∀ n, (Status.exit (.fault (.unknownOpcode n))).exitCode = some 1 ∧
    (-99 ≤ n → n ≤ 98 → ∃ d : Word, (Status.exit (.fault (.unknownOpcode n))).exitDetail = some d ∧ d.toInt = n)) ∧
  (∀ n, (Status.exit (.fault (.unknownMode n))).exitCode = some 2 ∧
    (3 ≤ n → n ≤ 9 → ∃ d : Word, (Status.exit (.fault (.unknownMode n))).exitDetail = some d ∧ d.toInt = n)) ∧
  ((Status.exit (.fault .writeToImmediate)).exitCode = some 3 ∧
    (Status.exit (.fault .negativeAddress)).exitCode = some 4 ∧ (Status.exit (.fault .overflow)).exitCode = some 5 ∧
    (Status.exit (.fault .capacityExceeded)).exitCode = some 6) ∧
  ((Status.exit (.fault .writeToImmediate)).exitDetail = some 0 ∧
    (Status.exit (.fault .negativeAddress)).exitDetail = some 0 ∧ (Status.exit (.fault .overflow)).exitDetail = some 0 ∧
    (Status.exit (.fault .capacityExceeded)).exitDetail = some 0) ∧
  (∀ st : Status, st.exitCode ≠ some 7) ∧
  (∀ (s : State) (a : Nat), Inv s → s.status.awaitAddr = some a → a ≤ addrMax)

/-- 60_exceptions.md R167: "Under the source's `Unbounded` it is never raised." -/
def Obligations.CapacityExceededOnlyWhenBounded : Prop :=
  ∀ s t : State, s.config.capacity = .unbounded → step s = .next t →
    t.status = .exit (.fault .capacityExceeded) → s.status = .exit (.fault .capacityExceeded)

/-- The invariant holds after reset. -/
def Obligations.ResetMeetsInvariant : Prop := Inv State.reset

/-- 10_state.md R21, R26, R27, 20_memory.md R50, 60_exceptions.md R159, R160, R167: every step, of the engine or of the host,
keeps the invariant. -/
def Obligations.StepKeepsInvariant : Prop :=
  ∀ s t : State, Inv s → step s = .next t → Inv t
end

