-- ==== Sys2Proof/Laws/State.lean ====
section
/-! SUPPORT. One lemma per field per update of State, so that no proof unfolds a record update. -/

namespace Sys2Proof.Machine

open Sys2Proof

variable (s : State) (np : Nat) (v : Word) (st : Status) (f : BlockFault) (a : Nat)

@[simp] theorem State.setPc_pc : (s.setPc np).pc = np := rfl
@[simp] theorem State.setPc_rb : (s.setPc np).rb = s.rb := rfl
@[simp] theorem State.setPc_status : (s.setPc np).status = s.status := rfl
@[simp] theorem State.setPc_mem : (s.setPc np).mem = s.mem := rfl
@[simp] theorem State.setPc_refused : (s.setPc np).refused = s.refused := rfl
@[simp] theorem State.setPc_config : (s.setPc np).config = s.config := rfl
@[simp] theorem State.setPc_turn : (s.setPc np).turn = s.turn := rfl
@[simp] theorem State.setPc_commands : (s.setPc np).commands = s.commands := rfl
@[simp] theorem State.setPc_replies : (s.setPc np).replies = s.replies := rfl
@[simp] theorem State.setPc_aborted : (s.setPc np).aborted = s.aborted := rfl

@[simp] theorem State.setRb_pc : (s.setRb v).pc = s.pc := rfl
@[simp] theorem State.setRb_rb : (s.setRb v).rb = v := rfl
@[simp] theorem State.setRb_status : (s.setRb v).status = s.status := rfl
@[simp] theorem State.setRb_mem : (s.setRb v).mem = s.mem := rfl
@[simp] theorem State.setRb_refused : (s.setRb v).refused = s.refused := rfl
@[simp] theorem State.setRb_config : (s.setRb v).config = s.config := rfl
@[simp] theorem State.setRb_turn : (s.setRb v).turn = s.turn := rfl
@[simp] theorem State.setRb_commands : (s.setRb v).commands = s.commands := rfl
@[simp] theorem State.setRb_replies : (s.setRb v).replies = s.replies := rfl
@[simp] theorem State.setRb_aborted : (s.setRb v).aborted = s.aborted := rfl

@[simp] theorem State.setStatus_pc : (s.setStatus st).pc = s.pc := rfl
@[simp] theorem State.setStatus_rb : (s.setStatus st).rb = s.rb := rfl
@[simp] theorem State.setStatus_status : (s.setStatus st).status = st := rfl
@[simp] theorem State.setStatus_mem : (s.setStatus st).mem = s.mem := rfl
@[simp] theorem State.setStatus_refused : (s.setStatus st).refused = s.refused := rfl
@[simp] theorem State.setStatus_config : (s.setStatus st).config = s.config := rfl
@[simp] theorem State.setStatus_turn : (s.setStatus st).turn = s.turn := rfl
@[simp] theorem State.setStatus_commands : (s.setStatus st).commands = s.commands := rfl
@[simp] theorem State.setStatus_replies : (s.setStatus st).replies = s.replies := rfl
@[simp] theorem State.setStatus_aborted : (s.setStatus st).aborted = s.aborted := rfl

@[simp] theorem State.store_pc : (s.store a v).pc = s.pc := rfl
@[simp] theorem State.store_rb : (s.store a v).rb = s.rb := rfl
@[simp] theorem State.store_status : (s.store a v).status = s.status := rfl
@[simp] theorem State.store_mem : (s.store a v).mem = s.mem.write a v := rfl
@[simp] theorem State.store_refused : (s.store a v).refused = s.refused := rfl
@[simp] theorem State.store_config : (s.store a v).config = s.config := rfl
@[simp] theorem State.store_turn : (s.store a v).turn = s.turn := rfl
@[simp] theorem State.store_commands : (s.store a v).commands = s.commands := rfl
@[simp] theorem State.store_replies : (s.store a v).replies = s.replies := rfl
@[simp] theorem State.store_aborted : (s.store a v).aborted = s.aborted := rfl

@[simp] theorem State.takeFault_pc : (s.takeFault f).pc = s.pc := rfl
@[simp] theorem State.takeFault_rb : (s.takeFault f).rb = s.rb := rfl
@[simp] theorem State.takeFault_status : (s.takeFault f).status = .exit (.fault f) := rfl
@[simp] theorem State.takeFault_mem : (s.takeFault f).mem = s.mem := rfl
@[simp] theorem State.takeFault_refused : (s.takeFault f).refused = s.refused := rfl
@[simp] theorem State.takeFault_config : (s.takeFault f).config = s.config := rfl
@[simp] theorem State.takeFault_turn : (s.takeFault f).turn = s.turn := rfl
@[simp] theorem State.takeFault_commands : (s.takeFault f).commands = s.commands := rfl
@[simp] theorem State.takeFault_replies : (s.takeFault f).replies = s.replies := rfl
@[simp] theorem State.takeFault_aborted : (s.takeFault f).aborted = s.aborted := rfl

/-- Everything the test of the run loop can do: nothing while Paused, else give the turn and the status to the host. -/
theorem State.returnIfSuspended_cases :
    (s.status = .paused ∧ s.returnIfSuspended = s) ∨
      (s.status ≠ .paused ∧
        s.returnIfSuspended = { s with turn := .host, replies := s.replies ++ [.resumed s.status] }) := by
  cases h : s.status with
  | paused => exact .inl ⟨rfl, by simp [State.returnIfSuspended, h]⟩
  | awaiting dst => exact .inr ⟨by simp, by simp [State.returnIfSuspended, h]⟩
  | outputting w => exact .inr ⟨by simp, by simp [State.returnIfSuspended, h]⟩
  | exit r => exact .inr ⟨by simp, by simp [State.returnIfSuspended, h]⟩

theorem State.returnIfSuspended_of_paused {s : State} (h : s.status = .paused) : s.returnIfSuspended = s := by
  simp [State.returnIfSuspended, h]

theorem State.returnIfSuspended_of_suspended {s : State} (h : s.status ≠ .paused) :
    s.returnIfSuspended = { s with turn := .host, replies := s.replies ++ [.resumed s.status] } := by
  rcases s.returnIfSuspended_cases with ⟨hp, _⟩ | ⟨_, e⟩
  · exact absurd hp h
  · exact e

@[simp] theorem State.returnIfSuspended_pc : s.returnIfSuspended.pc = s.pc := by
  rcases s.returnIfSuspended_cases with ⟨_, h⟩ | ⟨_, h⟩ <;> rw [h]

@[simp] theorem State.returnIfSuspended_rb : s.returnIfSuspended.rb = s.rb := by
  rcases s.returnIfSuspended_cases with ⟨_, h⟩ | ⟨_, h⟩ <;> rw [h]

@[simp] theorem State.returnIfSuspended_status : s.returnIfSuspended.status = s.status := by
  rcases s.returnIfSuspended_cases with ⟨_, h⟩ | ⟨_, h⟩ <;> rw [h]

@[simp] theorem State.returnIfSuspended_mem : s.returnIfSuspended.mem = s.mem := by
  rcases s.returnIfSuspended_cases with ⟨_, h⟩ | ⟨_, h⟩ <;> rw [h]

@[simp] theorem State.returnIfSuspended_refused : s.returnIfSuspended.refused = s.refused := by
  rcases s.returnIfSuspended_cases with ⟨_, h⟩ | ⟨_, h⟩ <;> rw [h]

@[simp] theorem State.returnIfSuspended_config : s.returnIfSuspended.config = s.config := by
  rcases s.returnIfSuspended_cases with ⟨_, h⟩ | ⟨_, h⟩ <;> rw [h]

@[simp] theorem State.returnIfSuspended_commands : s.returnIfSuspended.commands = s.commands := by
  rcases s.returnIfSuspended_cases with ⟨_, h⟩ | ⟨_, h⟩ <;> rw [h]

@[simp] theorem State.returnIfSuspended_aborted : s.returnIfSuspended.aborted = s.aborted := by
  rcases s.returnIfSuspended_cases with ⟨_, h⟩ | ⟨_, h⟩ <;> rw [h]

end Sys2Proof.Machine
end

