-- ==== Sys2Proof/Laws/Checks.lean ====
section
/-! SUPPORT. What each check, access and resolver can do: one lemma each, which proofs cite instead of unfolding. -/

namespace Sys2Proof.Machine

open Sys2Proof

/-- A sequence of two computations that completes: each of them completed. -/
theorem bind_ok_iff {ε α β : Type} {x : Except ε α} {f : α → Except ε β} {b : β} :
    (x >>= f) = .ok b ↔ ∃ a, x = .ok a ∧ f a = .ok b := by
  cases x with
  | error e => simp [bind, Except.bind]
  | ok a => simp [bind, Except.bind]

/-- A sequence of two computations that raises: the first raises, or it completes and the second raises. -/
theorem bind_error_iff {ε α β : Type} {x : Except ε α} {f : α → Except ε β} {e : ε} :
    (x >>= f) = .error e ↔ x = .error e ∨ ∃ a, x = .ok a ∧ f a = .error e := by
  cases x with
  | error e' => simp [bind, Except.bind]
  | ok a => simp [bind, Except.bind]

theorem memRead_ok_iff {s : State} {a : Nat} {v : Word} :
    memRead s a = .ok v ↔ Capacity.holds s.config.capacity a = true ∧ s.mem.read a = v := by
  rw [memRead]
  split <;> simp_all

theorem memRead_error_iff {s : State} {a : Nat} {f : BlockFault} :
    memRead s a = .error f ↔ Capacity.holds s.config.capacity a = false ∧ f = .capacityExceeded := by
  rw [memRead]
  split
  next h => simp [h]
  next h => simp [Bool.eq_false_iff.2 h, eq_comm (a := f)]

theorem memWrite_ok_iff {s t : State} {a : Nat} {v : Word} :
    memWrite s a v = .ok t ↔ Capacity.holds s.config.capacity a = true ∧ t = s.store a v := by
  rw [memWrite]
  split
  next h => simp [h, eq_comm (a := t)]
  next h => simp [h]

theorem memWrite_error_iff {s : State} {a : Nat} {v : Word} {f : BlockFault} :
    memWrite s a v = .error f ↔ Capacity.holds s.config.capacity a = false ∧ f = .capacityExceeded := by
  rw [memWrite]
  split
  next h => simp [h]
  next h => simp [Bool.eq_false_iff.2 h, eq_comm (a := f)]

theorem checkWord_ok_iff {p : OverflowPolicy} {v : Int} {w : Word} :
    checkWord p v = .ok w ↔ (inWord v ∨ p = .wrap) ∧ w = BitVec.ofInt 64 v := by
  unfold checkWord
  split
  next h => exact ⟨fun e => ⟨.inl h, (Except.ok.inj e).symm⟩, fun e => e.2 ▸ rfl⟩
  next h => cases p <;> simp [h, wrap, eq_comm (a := w)]

theorem checkWord_error_iff {p : OverflowPolicy} {v : Int} {f : BlockFault} :
    checkWord p v = .error f ↔ ¬ inWord v ∧ p = .fault ∧ f = .overflow := by
  unfold checkWord
  split
  next h => exact ⟨nofun, fun e => absurd h e.1⟩
  next h => cases p <;> simp [h, eq_comm (a := f)]

theorem checkAddr_ok_iff {a b : Nat} : checkAddr a = .ok b ↔ a ≤ addrMax ∧ b = a := by
  rw [checkAddr]
  split
  next h => simp [h]
  next h => simp [Nat.not_lt.1 h, eq_comm (a := b)]

theorem checkAddr_error_iff {a : Nat} {f : BlockFault} : checkAddr a = .error f ↔ addrMax < a ∧ f = .overflow := by
  rw [checkAddr]
  split
  next h => simp [h, eq_comm (a := f)]
  next h => simp [h]

theorem nextPc_ok_iff {s : State} {n np : Nat} : nextPc s n = .ok np ↔ s.pc + n ≤ addrMax ∧ np = s.pc + n :=
  checkAddr_ok_iff

/-- A word is at most `ADDR_MAX` when it is read as an address. -/
theorem toNat_toInt_le_addrMax (w : Word) : w.toInt.toNat ≤ addrMax := by
  have := BitVec.toInt_lt (x := w)
  simp only [addrMax]
  omega

theorem directAddr_ok_iff {x : Word} {a : Nat} : directAddr x = .ok a ↔ 0 ≤ x.toInt ∧ a = x.toInt.toNat := by
  rw [directAddr]
  split
  next h => simp [Int.not_le.2 h]
  next h => simp [Int.not_lt.1 h, eq_comm (a := a)]

theorem jumpTarget_ok_iff {b : Word} {a : Nat} : jumpTarget b = .ok a ↔ 0 ≤ b.toInt ∧ a = b.toInt.toNat :=
  directAddr_ok_iff

/-- A Relative address is an address. -/
theorem relAddr_le {s : State} {x : Word} {a : Nat} (h : relAddr s x = .ok a) : a ≤ addrMax := by
  rw [relAddr] at h
  split at h
  · simp only at h
    split at h
    · simp at h
    · split at h
      · simp at h
      · simp only [Except.ok.injEq] at h
        omega
  · simp only at h
    split at h
    · simp at h
    · simp only [Except.ok.injEq] at h
      exact h ▸ toNat_toInt_le_addrMax _

/-- A fault of a Direct address is a negative address. -/
theorem directAddr_error {x : Word} {f : BlockFault} (h : directAddr x = .error f) : f = .negativeAddress := by
  rw [directAddr] at h
  split at h <;> simp_all

/-- A fault of a Relative address is a negative address or an overflow. -/
theorem relAddr_error {s : State} {x : Word} {f : BlockFault} (h : relAddr s x = .error f) :
    f = .negativeAddress ∨ f = .overflow := by
  rw [relAddr] at h
  split at h
  · simp only at h
    split at h
    · simp_all
    · split at h <;> simp_all
  · simp only at h
    split at h <;> simp_all

/-- A value read comes from memory the store holds, or is the operand word itself. -/
theorem resolveRead_cases {s : State} {o : Operand} {v : Word} (h : resolveRead s o = .ok v) :
    (∃ a, a ≤ addrMax ∧ Capacity.holds s.config.capacity a = true ∧ v = s.mem.read a) ∨
      (o = .immediate v) := by
  cases o with
  | direct x =>
    obtain ⟨a, ha, hv⟩ := bind_ok_iff.1 h
    obtain ⟨_, rfl⟩ := directAddr_ok_iff.1 ha
    obtain ⟨hh, rfl⟩ := memRead_ok_iff.1 hv
    exact .inl ⟨_, toNat_toInt_le_addrMax x, hh, rfl⟩
  | immediate x =>
    simp only [resolveRead, Except.ok.injEq] at h
    exact .inr (h ▸ rfl)
  | relative x =>
    obtain ⟨a, ha, hv⟩ := bind_ok_iff.1 h
    obtain ⟨hh, rfl⟩ := memRead_ok_iff.1 hv
    exact .inl ⟨a, relAddr_le ha, hh, rfl⟩

/-- The faults of an operand (40_execution_cycle.md R106 item 5). -/
theorem resolveRead_error {s : State} {o : Operand} {f : BlockFault} (h : resolveRead s o = .error f) :
    f = .negativeAddress ∨ f = .overflow ∨
      (f = .capacityExceeded ∧ ∃ a, Capacity.holds s.config.capacity a = false) := by
  cases o with
  | direct x =>
    rcases bind_error_iff.1 h with h | ⟨a, _, h⟩
    · exact .inl (directAddr_error h)
    · exact .inr (.inr ⟨(memRead_error_iff.1 h).2, a, (memRead_error_iff.1 h).1⟩)
  | immediate x => simp [resolveRead] at h
  | relative x =>
    rcases bind_error_iff.1 h with h | ⟨a, _, h⟩
    · exact (relAddr_error h).imp_right .inl
    · exact .inr (.inr ⟨(memRead_error_iff.1 h).2, a, (memRead_error_iff.1 h).1⟩)

/-- A write operand that resolves is not Immediate. -/
theorem resolveWrite_not_immediate {s : State} {o : Operand} {a : Nat} (h : resolveWrite s o = .ok a) :
    o.mode ≠ .immediate := by
  cases o with
  | direct x => simp [Operand.mode]
  | immediate x => simp [resolveWrite] at h
  | relative x => simp [Operand.mode]

/-- The faults of a write operand (40_execution_cycle.md R106 item 5). -/
theorem resolveWrite_error {s : State} {o : Operand} {f : BlockFault} (h : resolveWrite s o = .error f) :
    f = .negativeAddress ∨ f = .overflow ∨ f = .writeToImmediate := by
  cases o with
  | direct x => exact .inl (directAddr_error h)
  | immediate x =>
    simp only [resolveWrite, Except.error.injEq] at h
    exact .inr (.inr h.symm)
  | relative x => exact (relAddr_error h).imp_right .inl

end Sys2Proof.Machine
end

