-- ==== Sys2Proof/Laws/Decode.lean ====
section
/-! SUPPORT. What the pieces of the decoder can do. -/

namespace Sys2Proof

/-- Every operation is found by its selector. -/
@[simp] theorem Opcode.ofSelector_selector (o : Opcode) : Opcode.ofSelector o.selector = some o := by
  cases o <;> decide

/-- A selector selects an operation only if it is that operation's. -/
theorem Opcode.selector_of_ofSelector {s : Int} {o : Opcode} (h : Opcode.ofSelector s = some o) : o.selector = s := by
  have := List.find?_some h
  simpa using this

/-- No two operations have one selector (30_encoding.md R71). -/
theorem Opcode.selectors_distinct : Opcode.all.Pairwise fun o p => o.selector ≠ p.selector := by decide

@[simp] theorem Mode.ofDigit_digit (m : Mode) : Mode.ofDigit m.digit = some m := by cases m <;> rfl

theorem Mode.digit_of_ofDigit {d : Nat} {m : Mode} (h : Mode.ofDigit d = some m) : m.digit = d := by
  match d with
  | 0 => cases h; rfl
  | 1 => cases h; rfl
  | 2 => cases h; rfl
  | n + 3 => simp [Mode.ofDigit] at h

/-- The digits without a mode are those of 3 and above. -/
theorem Mode.ofDigit_eq_none_iff {d : Nat} : Mode.ofDigit d = none ↔ 3 ≤ d := by
  match d with
  | 0 => simp [Mode.ofDigit]
  | 1 => simp [Mode.ofDigit]
  | 2 => simp [Mode.ofDigit]
  | n + 3 => simp [Mode.ofDigit]

@[simp] theorem Operand.ofMode_mode_word (o : Operand) : Operand.ofMode o.mode o.word = o := by cases o <;> rfl

theorem digit_lt (w k : Nat) : digit w k < 10 := Nat.mod_lt _ (by decide)

/-- The decoder gives one mode for each operand. -/
theorem decodeModes_length {field k n : Nat} {ms : List Mode} (h : decodeModes field k n = .ok ms) : ms.length = n := by
  induction n generalizing k ms with
  | zero => simp [decodeModes] at h; simp [h]
  | succ n ih =>
    rw [decodeModes] at h
    split at h
    · simp at h
    · split at h
      · simp at h
      next hms =>
        simp only [Except.ok.injEq] at h
        simp [← h, ih hms]

/-- A rejected mode field names a digit that has no mode. -/
theorem decodeModes_error {field k n : Nat} {e : HeaderReject} (h : decodeModes field k n = .error e) :
    ∃ j, k ≤ j ∧ j < k + n ∧ e = .unknownMode (digit field j) ∧ 3 ≤ digit field j := by
  induction n generalizing k with
  | zero => simp [decodeModes] at h
  | succ n ih =>
    rw [decodeModes] at h
    split at h
    next hd =>
      simp only [Except.error.injEq] at h
      exact ⟨k, Nat.le_refl k, by omega, h.symm, Mode.ofDigit_eq_none_iff.1 hd⟩
    · split at h
      next he =>
        obtain rfl := Except.error.inj h
        obtain ⟨j, hk, hj, hej, h3⟩ := ih he
        exact ⟨j, by omega, by omega, hej, h3⟩
      · simp at h

/-- What the decoder of an instruction word can reject it for. -/
theorem decodeHeader_error {x : ExcessDigits} {w : Word} {r : HeaderReject} (h : decodeHeader x w = .error r) :
    (r = .unknownOpcode (selectorOf w) ∧ Opcode.ofSelector (selectorOf w) = none) ∨
      (∃ k, r = .unknownMode (digit (modeField w) k) ∧ 3 ≤ digit (modeField w) k) ∨
      (r = .excessDigits ∧ x = .refuse) := by
  rw [decodeHeader] at h
  split at h
  next ho =>
    simp only [Except.error.injEq] at h
    exact .inl ⟨h.symm, ho⟩
  · split at h
    next he =>
      obtain rfl := Except.error.inj h
      obtain ⟨j, _, _, hej, h3⟩ := decodeModes_error he
      exact .inr (.inl ⟨j, hej, h3⟩)
    · split at h
      next hx =>
        simp only [Except.error.injEq] at h
        exact .inr (.inr ⟨h.symm, hx.2⟩)
      · simp at h

end Sys2Proof
end

