-- ==== Sys2Proof/Laws/Instructions.lean ====
section
/-! SUPPORT. What each shared shape of the instructions can do: inversion lemmas, which proofs cite instead of unfolding. -/

namespace Sys2Proof.Machine

open Sys2Proof

/-- The end of an instruction is a next state: its own effect, or fault entry into the state it started from. -/
theorem complete_cases (s : State) (r : Except BlockFault State) :
    (∃ t, r = .ok t ∧ complete s r = .next t) ∨ (∃ f, r = .error f ∧ complete s r = .next (s.takeFault f)) := by
  cases r with
  | ok t => exact .inl ⟨t, rfl, rfl⟩
  | error f => exact .inr ⟨f, rfl, rfl⟩

@[simp] theorem complete_ok (s t : State) : complete s (.ok t) = .next t := rfl

@[simp] theorem complete_error (s : State) (f : BlockFault) : complete s (.error f) = .next (s.takeFault f) := rfl

/-- What ADD, MUL, LT and EQ do when they complete. -/
theorem storeResult_ok {f : Word → Word → Except BlockFault Word} {a b c : Operand} {s t : State}
    (h : storeResult f a b c s = .ok t) :
    ∃ va vb dst r, resolveRead s a = .ok va ∧ resolveRead s b = .ok vb ∧ resolveWrite s c = .ok dst ∧
      f va vb = .ok r ∧ s.pc + 4 ≤ addrMax ∧ Capacity.holds s.config.capacity dst = true ∧
      t = (s.store dst r).setPc (s.pc + 4) := by
  obtain ⟨va, hva, h⟩ := bind_ok_iff.1 h
  obtain ⟨vb, hvb, h⟩ := bind_ok_iff.1 h
  obtain ⟨dst, hdst, h⟩ := bind_ok_iff.1 h
  obtain ⟨r, hr, h⟩ := bind_ok_iff.1 h
  obtain ⟨np, hnp, h⟩ := bind_ok_iff.1 h
  obtain ⟨u, hu, h⟩ := bind_ok_iff.1 h
  obtain ⟨hpc, rfl⟩ := nextPc_ok_iff.1 hnp
  obtain ⟨hh, rfl⟩ := memWrite_ok_iff.1 hu
  exact ⟨va, vb, dst, r, hva, hvb, hdst, hr, hpc, hh, (Except.ok.inj h).symm⟩

/-- What JT and JF do when they complete. -/
theorem jumpIf_ok {taken : Word → Bool} {a b : Operand} {s t : State} (h : jumpIf taken a b s = .ok t) :
    ∃ va vb np, resolveRead s a = .ok va ∧ resolveRead s b = .ok vb ∧ t = s.setPc np ∧ np ≤ addrMax ∧
      ((taken va = true ∧ 0 ≤ vb.toInt ∧ np = vb.toInt.toNat) ∨ (taken va = false ∧ np = s.pc + 3)) := by
  obtain ⟨va, hva, h⟩ := bind_ok_iff.1 h
  obtain ⟨vb, hvb, h⟩ := bind_ok_iff.1 h
  obtain ⟨np, hnp, h⟩ := bind_ok_iff.1 h
  refine ⟨va, vb, np, hva, hvb, (Except.ok.inj h).symm, ?_⟩
  rw [branchPc] at hnp
  split at hnp
  next ht =>
    obtain ⟨h0, rfl⟩ := jumpTarget_ok_iff.1 hnp
    exact ⟨toNat_toInt_le_addrMax vb, .inl ⟨ht, h0, rfl⟩⟩
  next ht =>
    obtain ⟨hle, rfl⟩ := nextPc_ok_iff.1 hnp
    exact ⟨hle, .inr ⟨by simpa using ht, rfl⟩⟩

/-- What IN and OUT do at their end when they complete. -/
theorem suspendAs_ok {s t : State} {st : Status} (h : suspendAs s st = .ok t) :
    s.pc + 2 ≤ addrMax ∧ t = (s.setPc (s.pc + 2)).setStatus st := by
  obtain ⟨np, hnp, h⟩ := bind_ok_iff.1 h
  obtain ⟨hpc, rfl⟩ := nextPc_ok_iff.1 hnp
  exact ⟨hpc, (Except.ok.inj h).symm⟩

theorem checkCapacity_ok_iff {s : State} {a : Nat} {u : Unit} :
    checkCapacity s a = .ok u ↔ Capacity.holds s.config.capacity a = true := by
  rw [checkCapacity]
  split <;> simp_all

end Sys2Proof.Machine
end

