-- ==== Sys2Proof/Laws/Memory.lean ====
section
/-! SUPPORT. The laws of the memory: what a read gives after each operation, and that each keeps the canonical form. -/

namespace Sys2Proof.Machine

open Sys2Proof

@[simp] theorem Memory.read_nil (a : Nat) : Memory.read [] a = Memory.unlisted := rfl

theorem Memory.read_cons (c : Nat × Word) (m : Memory) (a : Nat) :
    Memory.read (c :: m) a = if a = c.1 then c.2 else Memory.read m a := rfl

theorem Memory.mem_remove {m : Memory} {a : Nat} {c : Nat × Word} : c ∈ m.remove a ↔ c ∈ m ∧ c.1 ≠ a := by
  simp [Memory.remove]

/-- An address that no entry has reads as unlisted. -/
theorem Memory.read_of_not_listed {m : Memory} {a : Nat} (h : ∀ c ∈ m, c.1 ≠ a) : m.read a = Memory.unlisted := by
  induction m with
  | nil => rfl
  | cons c m ih =>
    rw [Memory.read_cons, if_neg fun e => h c (by simp) e.symm]
    exact ih fun d hd => h d (List.mem_cons_of_mem c hd)

@[simp] theorem Memory.read_remove_same (m : Memory) (a : Nat) : (m.remove a).read a = Memory.unlisted :=
  Memory.read_of_not_listed fun _ hc => (Memory.mem_remove.1 hc).2

theorem Memory.read_remove_other (m : Memory) {a b : Nat} (h : b ≠ a) : (m.remove a).read b = m.read b := by
  induction m with
  | nil => rfl
  | cons c m ih =>
    by_cases hc : c.1 = a
    · have : Memory.remove (c :: m) a = Memory.remove m a := by simp [Memory.remove, hc]
      rw [this, ih, Memory.read_cons, if_neg fun e => h (e.trans hc)]
    · have : Memory.remove (c :: m) a = c :: Memory.remove m a := by simp [Memory.remove, hc]
      rw [this, Memory.read_cons, Memory.read_cons, ih]

theorem Memory.mem_insert {m : Memory} {a : Nat} {v : Word} {c : Nat × Word} :
    c ∈ m.insert a v ↔ c = (a, v) ∨ c ∈ m := by
  induction m with
  | nil => simp [Memory.insert]
  | cons d m ih =>
    rw [Memory.insert]
    split
    · simp
    · simp only [List.mem_cons, ih]; tauto

theorem Memory.read_insert_same {m : Memory} {a : Nat} {v : Word} (h : ∀ c ∈ m, c.1 ≠ a) : (m.insert a v).read a = v := by
  induction m with
  | nil => simp [Memory.insert, Memory.read_cons]
  | cons c m ih =>
    rw [Memory.insert]
    split
    · simp [Memory.read_cons]
    · rw [Memory.read_cons, if_neg fun e => h c (by simp) e.symm]
      exact ih fun d hd => h d (List.mem_cons_of_mem c hd)

theorem Memory.read_insert_other (m : Memory) {a b : Nat} (v : Word) (h : b ≠ a) : (m.insert a v).read b = m.read b := by
  induction m with
  | nil => simp [Memory.insert, Memory.read_cons, h]
  | cons c m ih =>
    rw [Memory.insert]
    split
    · rw [Memory.read_cons, if_neg h]
    · rw [Memory.read_cons, Memory.read_cons, ih]

/-- A read after a write to the same address gives the word written, in every memory. -/
@[simp] theorem Memory.read_write_same (m : Memory) (a : Nat) (v : Word) : (m.write a v).read a = v := by
  rw [Memory.write]
  split
  next h => rw [Memory.read_remove_same, h]
  next => exact Memory.read_insert_same fun _ hc => (Memory.mem_remove.1 hc).2

/-- A write leaves every other address alone, in every memory. -/
theorem Memory.read_write_other (m : Memory) {a b : Nat} (v : Word) (h : b ≠ a) : (m.write a v).read b = m.read b := by
  rw [Memory.write]
  split
  · exact Memory.read_remove_other m h
  · rw [Memory.read_insert_other _ v h, Memory.read_remove_other m h]

theorem Memory.wf_remove {m : Memory} (h : m.wf) (a : Nat) : (m.remove a).wf :=
  ⟨h.1.sublist List.filter_sublist, fun c hc => h.2 c (Memory.mem_remove.1 hc).1⟩

theorem Memory.sorted_insert {m : Memory} {a : Nat} {v : Word} (h : m.Pairwise fun c d => c.1 < d.1)
    (ha : ∀ c ∈ m, c.1 ≠ a) : (m.insert a v).Pairwise fun c d => c.1 < d.1 := by
  induction m with
  | nil => simp [Memory.insert]
  | cons c m ih =>
    obtain ⟨hc, hm⟩ := List.pairwise_cons.1 h
    rw [Memory.insert]
    split
    next hlt =>
      refine List.pairwise_cons.2 ⟨fun d hd => ?_, h⟩
      rcases List.mem_cons.1 hd with rfl | hd
      · exact hlt
      · exact Nat.lt_trans hlt (hc d hd)
    next hnot =>
      refine List.pairwise_cons.2 ⟨fun d hd => ?_, ih hm fun d hd => ha d (List.mem_cons_of_mem c hd)⟩
      rcases Memory.mem_insert.1 hd with rfl | hd
      · have := ha c (by simp)
        simp only
        omega
      · exact hc d hd

/-- A write keeps the canonical form. -/
theorem Memory.wf_write {m : Memory} (h : m.wf) (a : Nat) (v : Word) : (m.write a v).wf := by
  rw [Memory.write]
  split
  · exact Memory.wf_remove h a
  next hv =>
    refine ⟨Memory.sorted_insert (Memory.wf_remove h a).1 fun c hc => (Memory.mem_remove.1 hc).2, fun c hc => ?_⟩
    rcases Memory.mem_insert.1 hc with rfl | hc
    · exact hv
    · exact (Memory.wf_remove h a).2 c hc

/-- Every entry after a write is the entry written, or an entry there was. -/
theorem Memory.mem_write {m : Memory} {a : Nat} {v : Word} {c : Nat × Word} (h : c ∈ m.write a v) : c = (a, v) ∨ c ∈ m := by
  rw [Memory.write] at h
  split at h
  · exact .inr (Memory.mem_remove.1 h).1
  · exact (Memory.mem_insert.1 h).imp_right fun h => (Memory.mem_remove.1 h).1

/-- The addresses of an image placed at `a` are those of its words. -/
theorem Memory.mem_image {ws : List Word} {a : Nat} {c : Nat × Word} (h : c ∈ Memory.image a ws) :
    a ≤ c.1 ∧ c.1 < a + ws.length := by
  induction ws generalizing a with
  | nil => simp [Memory.image] at h
  | cons w ws ih =>
    have tail : c ∈ Memory.image (a + 1) ws → a ≤ c.1 ∧ c.1 < a + (w :: ws).length := fun h => by
      have := ih h
      simp only [List.length_cons]
      omega
    rw [Memory.image] at h
    split at h
    · exact tail h
    · rcases List.mem_cons.1 h with rfl | h
      · simp
      · exact tail h

/-- A program image is in canonical form. -/
theorem Memory.wf_image (a : Nat) (ws : List Word) : (Memory.image a ws).wf := by
  induction ws generalizing a with
  | nil => exact ⟨List.Pairwise.nil, by simp [Memory.image]⟩
  | cons w ws ih =>
    rw [Memory.image]
    split
    · exact ih (a + 1)
    next hw =>
      refine ⟨List.pairwise_cons.2 ⟨fun d hd => (Memory.mem_image hd).1, (ih (a + 1)).1⟩, fun c hc => ?_⟩
      rcases List.mem_cons.1 hc with rfl | hc
      · exact hw
      · exact (ih (a + 1)).2 c hc

/-- Below its first address an image reads as unlisted. -/
theorem Memory.read_image_below (ws : List Word) {a b : Nat} (h : b < a) :
    (Memory.image a ws).read b = Memory.unlisted :=
  Memory.read_of_not_listed fun c hc => by
    have := (Memory.mem_image hc).1
    omega

/-- Placing words at consecutive addresses keeps the canonical form. -/
theorem Memory.wf_placeWords {m : Memory} (h : m.wf) (a : Nat) (ws : List Word) : (placeWords m a ws).wf := by
  induction ws generalizing m a with
  | nil => exact h
  | cons w ws ih =>
    rw [placeWords]
    split
    · exact h
    · exact ih (Memory.wf_write h a w) (a + 1)

/-- Reset memory is in canonical form. -/
theorem State.reset_mem_wf : State.reset.mem.wf := by decide

end Sys2Proof.Machine
end

