-- ==== Sys2Proof/Laws/PerInstr.lean ====
section
/-! SUPPORT. The families of statements about every instruction as syntax, one lemma per constructor. -/

namespace Sys2Proof.Laws

open Sys2Proof

theorem Opcode.width_le (o : Opcode) : o.width ≤ 4 := by cases o <;> decide

/-- An instruction is encoded in as many words as its width: "1 + n consecutive memory words" (30_encoding.md R70). -/
def EncodedLength.Statement (i : Instr) : Prop := (encode i).length = i.opcode.width ∧ i.opcode.width ≤ 4

theorem EncodedLength.add (a b c : Operand) : EncodedLength.Statement (.add a b c) := ⟨rfl, Opcode.width_le _⟩
theorem EncodedLength.mul (a b c : Operand) : EncodedLength.Statement (.mul a b c) := ⟨rfl, Opcode.width_le _⟩
theorem EncodedLength.inp (c : Operand) : EncodedLength.Statement (.inp c) := ⟨rfl, Opcode.width_le _⟩
theorem EncodedLength.out (a : Operand) : EncodedLength.Statement (.out a) := ⟨rfl, Opcode.width_le _⟩
theorem EncodedLength.jt (a b : Operand) : EncodedLength.Statement (.jt a b) := ⟨rfl, Opcode.width_le _⟩
theorem EncodedLength.jf (a b : Operand) : EncodedLength.Statement (.jf a b) := ⟨rfl, Opcode.width_le _⟩
theorem EncodedLength.lt (a b c : Operand) : EncodedLength.Statement (.lt a b c) := ⟨rfl, Opcode.width_le _⟩
theorem EncodedLength.eq (a b c : Operand) : EncodedLength.Statement (.eq a b c) := ⟨rfl, Opcode.width_le _⟩
theorem EncodedLength.arb (a : Operand) : EncodedLength.Statement (.arb a) := ⟨rfl, Opcode.width_le _⟩
theorem EncodedLength.halt : EncodedLength.Statement .halt := ⟨rfl, Opcode.width_le _⟩

/-- An instruction has one operand for each role of its operation (30_encoding.md R71, R81). -/
def OperandsMatchRoles.Statement (i : Instr) : Prop := i.operands.length = i.opcode.roles.length

theorem OperandsMatchRoles.add (a b c : Operand) : OperandsMatchRoles.Statement (.add a b c) := rfl
theorem OperandsMatchRoles.mul (a b c : Operand) : OperandsMatchRoles.Statement (.mul a b c) := rfl
theorem OperandsMatchRoles.inp (c : Operand) : OperandsMatchRoles.Statement (.inp c) := rfl
theorem OperandsMatchRoles.out (a : Operand) : OperandsMatchRoles.Statement (.out a) := rfl
theorem OperandsMatchRoles.jt (a b : Operand) : OperandsMatchRoles.Statement (.jt a b) := rfl
theorem OperandsMatchRoles.jf (a b : Operand) : OperandsMatchRoles.Statement (.jf a b) := rfl
theorem OperandsMatchRoles.lt (a b c : Operand) : OperandsMatchRoles.Statement (.lt a b c) := rfl
theorem OperandsMatchRoles.eq (a b c : Operand) : OperandsMatchRoles.Statement (.eq a b c) := rfl
theorem OperandsMatchRoles.arb (a : Operand) : OperandsMatchRoles.Statement (.arb a) := rfl
theorem OperandsMatchRoles.halt : OperandsMatchRoles.Statement .halt := rfl

end Sys2Proof.Laws
end

