-- ==== Sys2Proof/Laws/Protocol.lean ====
section
/-! SUPPORT. The host's commands: what each leaves in each field, and everything a command can do, said once. -/

namespace Sys2Proof.Machine

open Sys2Proof

variable (s : State) (p : List Word) (e : HostError)

@[simp] theorem State.load_pc : (s.load p).pc = 0 := rfl
@[simp] theorem State.load_rb : (s.load p).rb = 0 := rfl
@[simp] theorem State.load_status : (s.load p).status = .paused := rfl
@[simp] theorem State.load_mem : (s.load p).mem = Memory.image 0 p := rfl
@[simp] theorem State.load_refused : (s.load p).refused = false := rfl
@[simp] theorem State.load_config : (s.load p).config = s.config := rfl
@[simp] theorem State.load_turn : (s.load p).turn = .host := rfl
@[simp] theorem State.load_commands : (s.load p).commands = s.commands := rfl
@[simp] theorem State.load_replies : (s.load p).replies = [] := rfl
@[simp] theorem State.load_aborted : (s.load p).aborted = s.aborted := rfl

@[simp] theorem State.abort_pc : (s.abort e).pc = s.pc := rfl
@[simp] theorem State.abort_rb : (s.abort e).rb = s.rb := rfl
@[simp] theorem State.abort_status : (s.abort e).status = s.status := rfl
@[simp] theorem State.abort_mem : (s.abort e).mem = s.mem := rfl
@[simp] theorem State.abort_refused : (s.abort e).refused = s.refused := rfl
@[simp] theorem State.abort_config : (s.abort e).config = s.config := rfl
@[simp] theorem State.abort_turn : (s.abort e).turn = s.turn := rfl
@[simp] theorem State.abort_commands : (s.abort e).commands = s.commands := rfl
@[simp] theorem State.abort_replies : (s.abort e).replies = s.replies := rfl
@[simp] theorem State.abort_aborted : (s.abort e).aborted = some e := rfl

@[simp] theorem State.resume_pc : s.resume.pc = s.pc := by simp [State.resume]
@[simp] theorem State.resume_rb : s.resume.rb = s.rb := by simp [State.resume]
@[simp] theorem State.resume_status : s.resume.status = s.status.discardOutput := by simp [State.resume]
@[simp] theorem State.resume_mem : s.resume.mem = s.mem := by simp [State.resume]
@[simp] theorem State.resume_refused : s.resume.refused = s.refused := by simp [State.resume]
@[simp] theorem State.resume_config : s.resume.config = s.config := by simp [State.resume]
@[simp] theorem State.resume_commands : s.resume.commands = s.commands := by simp [State.resume]
@[simp] theorem State.resume_aborted : s.resume.aborted = s.aborted := by simp [State.resume]

/-- Everything a command can do: make a new instance, complete an input, start a run or return from it, add to what the host
received, or abort the host. -/
theorem issue_cases (c : Command) :
    (∃ p, c = .load p ∧ programFits s.config.capacity p = true ∧ issue c s = s.load p) ∨
      (∃ x dst, c = .feed x ∧ s.status = .awaiting dst ∧ issue c s = (s.store dst x).setStatus .paused) ∨
      (c = .resume ∧ issue c s = s.resume) ∨
      (∃ a, c = .inspect a ∧ a ≤ addrMax ∧
        issue c s = { s with replies := s.replies ++ [.inspected s.pc s.rb s.status (s.mem.read a)] }) ∨
      (c = .abandon ∧ issue c s = s) ∨ ∃ e, issue c s = s.abort e := by
  cases c with
  | load p =>
    by_cases h : programFits s.config.capacity p = true
    · exact .inl ⟨p, rfl, h, by simp [issue, State.loadCommand, h]⟩
    · exact .inr (.inr (.inr (.inr (.inr ⟨.programTooLong, by simp [issue, State.loadCommand, h]⟩))))
  | resume => exact .inr (.inr (.inl ⟨rfl, rfl⟩))
  | feed x =>
    cases h : s.status with
    | awaiting dst => exact .inr (.inl ⟨x, dst, rfl, rfl, by simp [issue, State.feed, h]⟩)
    | paused => exact .inr (.inr (.inr (.inr (.inr ⟨.feedWhileNotAwaiting, by simp [issue, State.feed, h]⟩))))
    | outputting v => exact .inr (.inr (.inr (.inr (.inr ⟨.feedWhileNotAwaiting, by simp [issue, State.feed, h]⟩))))
    | exit r => exact .inr (.inr (.inr (.inr (.inr ⟨.feedWhileNotAwaiting, by simp [issue, State.feed, h]⟩))))
  | inspect a =>
    by_cases h : a ≤ addrMax
    · exact .inr (.inr (.inr (.inl ⟨a, rfl, h, by simp [issue, State.inspect, h]⟩)))
    · exact .inr (.inr (.inr (.inr (.inr ⟨.inspectNoAddress, by simp [issue, State.inspect, h]⟩))))
  | abandon => exact .inr (.inr (.inr (.inr (.inl ⟨rfl, rfl⟩))))

/-- The host issues its next command, or has none and changes nothing. -/
theorem hostMove_cases :
    (s.commands = [] ∧ hostMove s = s) ∨
      ∃ c cs, s.commands = c :: cs ∧ hostMove s = issue c { s with commands := cs } := by
  cases h : s.commands with
  | nil => exact .inl ⟨rfl, by simp [hostMove, h]⟩
  | cons c cs => exact .inr ⟨c, cs, rfl, by simp [hostMove, h]⟩

end Sys2Proof.Machine
end

