-- ==== Sys2Proof/Laws/Runs.lean ====
section
/-! SUPPORT. What the end of a run and its yield read: the small lemmas of Machine/Runs.lean. -/

namespace Sys2Proof.Machine

open Sys2Proof

theorem State.endReason_eq_some_iff {s : State} {r : ExitReason} :
    s.endReason = some r ↔ s.refused = false ∧ s.aborted = none ∧ s.status = .exit r := by
  cases hr : s.refused <;> cases ha : s.aborted <;> cases hs : s.status <;> simp [State.endReason, hr, ha, hs]

/-- The yield reads the block, the mark, the abort and the outputs, and nothing else. -/
theorem State.yielded_congr {s t : State} (hp : t.pc = s.pc) (hb : t.rb = s.rb) (hs : t.status = s.status)
    (hm : t.mem = s.mem) (hr : t.refused = s.refused) (ha : t.aborted = s.aborted)
    (ho : outputsOf t.replies = outputsOf s.replies) : t.yielded = s.yielded := by
  simp only [State.yielded, State.endReason, hp, hb, hs, hm, hr, ha, ho]

theorem outputsOf_append (rs qs : List Reply) : outputsOf (rs ++ qs) = outputsOf rs ++ outputsOf qs := by
  induction rs with
  | nil => rfl
  | cons r rs ih => rcases r with (_ | _ | _ | _) | _ <;> simp [outputsOf, ih]

@[simp] theorem outputsOf_resumed_paused : outputsOf [.resumed .paused] = [] := rfl
@[simp] theorem outputsOf_resumed_awaiting (dst : Nat) : outputsOf [.resumed (.awaiting dst)] = [] := rfl
@[simp] theorem outputsOf_resumed_outputting (v : Word) : outputsOf [.resumed (.outputting v)] = [v] := rfl
@[simp] theorem outputsOf_resumed_exit (r : ExitReason) : outputsOf [.resumed (.exit r)] = [] := rfl
@[simp] theorem outputsOf_inspected (p : Nat) (b : Word) (st : Status) (w : Word) :
    outputsOf [.inspected p b st w] = [] := rfl

end Sys2Proof.Machine
end

