-- ==== Sys2Proof/Laws/Step.lean ====
section
/-! SUPPORT. Inversion of exec, of fetch and of the step: everything each can do, said once. -/

namespace Sys2Proof.Machine

open Sys2Proof

/-- How an instruction completes: the effect its rule gives it, with the operands it resolved. -/
inductive Completes (s : State) : Instr → State → Prop where
  | stores (i : Instr) (a b c : Operand) (dst : Nat) (r : Word)
      (shape : i = .add a b c ∨ i = .mul a b c ∨ i = .lt a b c ∨ i = .eq a b c)
      (address : resolveWrite s c = .ok dst) (held : Capacity.holds s.config.capacity dst = true)
      (next : s.pc + 4 ≤ addrMax) : Completes s i ((s.store dst r).setPc (s.pc + 4))
  | jumps (i : Instr) (a b : Operand) (np : Nat) (shape : i = .jt a b ∨ i = .jf a b)
      (next : np ≤ addrMax) : Completes s i (s.setPc np)
  | awaits (c : Operand) (dst : Nat) (address : resolveWrite s c = .ok dst)
      (held : Capacity.holds s.config.capacity dst = true) (next : s.pc + 2 ≤ addrMax) :
      Completes s (.inp c) ((s.setPc (s.pc + 2)).setStatus (.awaiting dst))
  | outputs (a : Operand) (v : Word) (value : resolveRead s a = .ok v) (next : s.pc + 2 ≤ addrMax) :
      Completes s (.out a) ((s.setPc (s.pc + 2)).setStatus (.outputting v))
  | adjusts (a : Operand) (v nrb : Word) (value : resolveRead s a = .ok v) (next : s.pc + 2 ≤ addrMax) :
      Completes s (.arb a) ((s.setRb nrb).setPc (s.pc + 2))
  | halts : Completes s .halt (s.setStatus (.exit .halted))

/-- A fault an instruction raises after its fetch: no decode fault, and `CapacityExceeded` only where the store ends. -/
def ExecFault (s : State) (f : BlockFault) : Prop :=
  f = .writeToImmediate ∨ f = .negativeAddress ∨ f = .overflow ∨
    (f = .capacityExceeded ∧ ∃ a, Capacity.holds s.config.capacity a = false)

theorem ExecFault.of_read {s : State} {o : Operand} {f : BlockFault} (h : resolveRead s o = .error f) : ExecFault s f :=
  .inr (resolveRead_error h)

theorem ExecFault.of_write {s : State} {o : Operand} {f : BlockFault} (h : resolveWrite s o = .error f) :
    ExecFault s f := by
  rcases resolveWrite_error h with h | h | h
  · exact .inr (.inl h)
  · exact .inr (.inr (.inl h))
  · exact .inl h

theorem ExecFault.of_nextPc {s : State} {n : Nat} {f : BlockFault} (h : nextPc s n = .error f) : ExecFault s f :=
  .inr (.inr (.inl (checkAddr_error_iff.1 h).2))

theorem ExecFault.of_checkWord {s : State} {p : OverflowPolicy} {v : Int} {f : BlockFault}
    (h : checkWord p v = .error f) : ExecFault s f :=
  .inr (.inr (.inl (checkWord_error_iff.1 h).2.2))

theorem storeResult_error {g : Word → Word → Except BlockFault Word} {a b c : Operand} {s : State} {f : BlockFault}
    (hg : ∀ va vb e, g va vb = .error e → ExecFault s e) (h : storeResult g a b c s = .error f) : ExecFault s f := by
  rcases bind_error_iff.1 h with h | ⟨va, _, h⟩
  · exact .of_read h
  rcases bind_error_iff.1 h with h | ⟨vb, _, h⟩
  · exact .of_read h
  rcases bind_error_iff.1 h with h | ⟨dst, _, h⟩
  · exact .of_write h
  rcases bind_error_iff.1 h with h | ⟨r, _, h⟩
  · exact hg _ _ _ h
  rcases bind_error_iff.1 h with h | ⟨np, _, h⟩
  · exact .of_nextPc h
  rcases bind_error_iff.1 h with h | ⟨t, _, h⟩
  · exact .inr (.inr (.inr ⟨(memWrite_error_iff.1 h).2, dst, (memWrite_error_iff.1 h).1⟩))
  · cases h

theorem jumpIf_error {taken : Word → Bool} {a b : Operand} {s : State} {f : BlockFault}
    (h : jumpIf taken a b s = .error f) : ExecFault s f := by
  rcases bind_error_iff.1 h with h | ⟨va, _, h⟩
  · exact .of_read h
  rcases bind_error_iff.1 h with h | ⟨vb, _, h⟩
  · exact .of_read h
  rcases bind_error_iff.1 h with h | ⟨np, _, h⟩
  · rw [branchPc] at h
    split at h
    · exact .inr (.inl (directAddr_error h))
    · exact .of_nextPc h
  · cases h

/-- `exec` answers a next state: a completion, or fault entry. -/
theorem exec_cases (i : Instr) (s : State) :
    (∃ t, exec i s = .next t ∧ Completes s i t) ∨ ∃ f, exec i s = .next (s.takeFault f) ∧ ExecFault s f := by
  have stores : ∀ (g : Word → Word → Except BlockFault Word) (a b c : Operand),
      (∀ va vb e, g va vb = .error e → ExecFault s e) →
      (i = .add a b c ∨ i = .mul a b c ∨ i = .lt a b c ∨ i = .eq a b c) →
      exec i s = complete s (storeResult g a b c s) →
      (∃ t, exec i s = .next t ∧ Completes s i t) ∨ ∃ f, exec i s = .next (s.takeFault f) ∧ ExecFault s f := by
    intro g a b c hg shape hexec
    rcases complete_cases s (storeResult g a b c s) with ⟨t, ht, hc⟩ | ⟨f, hf, hc⟩
    · obtain ⟨va, vb, dst, r, _, _, hdst, _, hpc, hh, rfl⟩ := storeResult_ok ht
      exact .inl ⟨_, hexec.trans hc, .stores i a b c dst r shape hdst hh hpc⟩
    · exact .inr ⟨f, hexec.trans hc, storeResult_error hg hf⟩
  have jumps : ∀ (taken : Word → Bool) (a b : Operand), (i = .jt a b ∨ i = .jf a b) →
      exec i s = complete s (jumpIf taken a b s) →
      (∃ t, exec i s = .next t ∧ Completes s i t) ∨ ∃ f, exec i s = .next (s.takeFault f) ∧ ExecFault s f := by
    intro taken a b shape hexec
    rcases complete_cases s (jumpIf taken a b s) with ⟨t, ht, hc⟩ | ⟨f, hf, hc⟩
    · obtain ⟨_, _, np, _, _, rfl, hnp, _⟩ := jumpIf_ok ht
      exact .inl ⟨_, hexec.trans hc, .jumps i a b np shape hnp⟩
    · exact .inr ⟨f, hexec.trans hc, jumpIf_error hf⟩
  cases hi : i with
  | add a b c => exact hi ▸ stores _ a b c (fun _ _ _ => .of_checkWord) (by simp [hi]) (by rw [hi]; rfl)
  | mul a b c => exact hi ▸ stores _ a b c (fun _ _ _ => .of_checkWord) (by simp [hi]) (by rw [hi]; rfl)
  | lt a b c =>
    exact hi ▸ stores (fun va vb => .ok (truthWord (lessThan va vb))) a b c (fun _ _ _ h => by cases h) (by simp [hi])
      (by rw [hi]; rfl)
  | eq a b c =>
    exact hi ▸ stores (fun va vb => .ok (truthWord (equals va vb))) a b c (fun _ _ _ h => by cases h) (by simp [hi])
      (by rw [hi]; rfl)
  | jt a b => exact hi ▸ jumps _ a b (by simp [hi]) (by rw [hi]; rfl)
  | jf a b => exact hi ▸ jumps _ a b (by simp [hi]) (by rw [hi]; rfl)
  | inp c =>
    rcases complete_cases s _ with ⟨t, ht, hc⟩ | ⟨f, hf, hc⟩
    · obtain ⟨dst, hdst, ht⟩ := bind_ok_iff.1 ht
      obtain ⟨u, hu, ht⟩ := bind_ok_iff.1 ht
      obtain ⟨hpc, rfl⟩ := suspendAs_ok ht
      exact .inl ⟨_, hc, .awaits c dst hdst (checkCapacity_ok_iff.1 hu) hpc⟩
    · refine .inr ⟨f, hc, ?_⟩
      rcases bind_error_iff.1 hf with hf | ⟨dst, _, hf⟩
      · exact .of_write hf
      rcases bind_error_iff.1 hf with hf | ⟨u, _, hf⟩
      · rw [checkCapacity] at hf
        split at hf
        · cases hf
        next hh => exact .inr (.inr (.inr ⟨(Except.error.inj hf).symm, dst, Bool.eq_false_iff.2 hh⟩))
      rcases bind_error_iff.1 hf with hf | ⟨np, _, hf⟩
      · exact .of_nextPc hf
      · cases hf
  | out a =>
    rcases complete_cases s _ with ⟨t, ht, hc⟩ | ⟨f, hf, hc⟩
    · obtain ⟨v, hv, ht⟩ := bind_ok_iff.1 ht
      obtain ⟨hpc, rfl⟩ := suspendAs_ok ht
      exact .inl ⟨_, hc, .outputs a v hv hpc⟩
    · refine .inr ⟨f, hc, ?_⟩
      rcases bind_error_iff.1 hf with hf | ⟨v, _, hf⟩
      · exact .of_read hf
      rcases bind_error_iff.1 hf with hf | ⟨np, _, hf⟩
      · exact .of_nextPc hf
      · cases hf
  | arb a =>
    rcases complete_cases s _ with ⟨t, ht, hc⟩ | ⟨f, hf, hc⟩
    · obtain ⟨v, hv, ht⟩ := bind_ok_iff.1 ht
      obtain ⟨nrb, _, ht⟩ := bind_ok_iff.1 ht
      obtain ⟨np, hnp, ht⟩ := bind_ok_iff.1 ht
      obtain ⟨hpc, rfl⟩ := nextPc_ok_iff.1 hnp
      exact .inl ⟨_, hc, Except.ok.inj ht ▸ .adjusts a v nrb hv hpc⟩
    · refine .inr ⟨f, hc, ?_⟩
      rcases bind_error_iff.1 hf with hf | ⟨v, _, hf⟩
      · exact .of_read hf
      rcases bind_error_iff.1 hf with hf | ⟨nrb, _, hf⟩
      · exact .of_checkWord hf
      rcases bind_error_iff.1 hf with hf | ⟨np, _, hf⟩
      · exact .of_nextPc hf
      · cases hf
  | halt => exact .inl ⟨_, rfl, .halts⟩

/-- A fault of the operand-word fetch (40_execution_cycle.md R106 item 4). -/
theorem fetchOperandWords_error {s : State} {k n : Nat} {f : BlockFault} (h : fetchOperandWords s k n = .error f) :
    f = .overflow ∨ (f = .capacityExceeded ∧ ∃ a, Capacity.holds s.config.capacity a = false) := by
  induction n generalizing k with
  | zero => cases h
  | succ n ih =>
    rcases bind_error_iff.1 h with h | ⟨w, _, h⟩
    · rcases bind_error_iff.1 h with h | ⟨a, _, h⟩
      · exact .inl (checkAddr_error_iff.1 h).2
      · exact .inr ⟨(memRead_error_iff.1 h).2, a, (memRead_error_iff.1 h).1⟩
    · rcases bind_error_iff.1 h with h | ⟨ws, _, h⟩
      · exact ih h
      · cases h

/-- What fetching stops with: a decode fault with its payload, a fault of an access, or a refusal under `Refuse`. -/
theorem fetchInstr_error {s : State} {e : FetchStop} (h : fetchInstr s = .error e) :
    (∃ t, e = .fault (.unknownOpcode t) ∧ t = selectorOf (s.mem.read s.pc) ∧ Opcode.ofSelector t = none) ∨
      (∃ d, e = .fault (.unknownMode d) ∧ 3 ≤ d ∧ d ≤ 9) ∨ e = .fault .overflow ∨
      (e = .fault .capacityExceeded ∧ ∃ a, Capacity.holds s.config.capacity a = false) ∨
      (e = .refuse ∧ s.config.excess = .refuse) := by
  rw [fetchInstr] at h
  split at h
  next hr =>
    obtain ⟨hh, rfl⟩ := memRead_error_iff.1 hr
    exact .inr (.inr (.inr (.inl ⟨(Except.error.inj h).symm, _, hh⟩)))
  next w hr =>
    obtain ⟨_, rfl⟩ := memRead_ok_iff.1 hr
    split at h
    next r hd =>
      obtain rfl := Except.error.inj h
      rcases decodeHeader_error hd with ⟨rfl, ho⟩ | ⟨k, rfl, h3⟩ | ⟨rfl, hx⟩
      · exact .inl ⟨_, rfl, rfl, ho⟩
      · exact .inr (.inl ⟨_, rfl, h3, Nat.le_of_lt_succ (digit_lt _ k)⟩)
      · exact .inr (.inr (.inr (.inr ⟨rfl, hx⟩)))
    · split at h
      next hw =>
        obtain rfl := Except.error.inj h
        rcases fetchOperandWords_error hw with rfl | ⟨rfl, ha⟩
        · exact .inr (.inr (.inl rfl))
        · exact .inr (.inr (.inr (.inl ⟨rfl, ha⟩)))
      · cases h

/-- Everything a step that answers a next state can do. -/
theorem step_cases {s t : State} (h : step s = .next t) :
    s.refused = false ∧ s.aborted = none ∧
      ((s.turn = .host ∧ t = hostMove s) ∨
        (s.running ∧
          ((∃ i u, fetchInstr s = .ok i ∧ exec i s = .next u ∧ t = u.returnIfSuspended) ∨
            (∃ f, fetchInstr s = .error (.fault f) ∧ t = (s.takeFault f).returnIfSuspended) ∨
            (fetchInstr s = .error .refuse ∧ t = { s with refused := true }))) ∨
        (s.turn = .engine ∧ s.status ≠ .paused ∧ t = s.returnIfSuspended)) := by
  rw [step, advance] at h
  split at h
  · cases h
  next hr =>
    have hr : s.refused = false := by simpa using hr
    split at h
    · cases h
    next ha =>
      refine ⟨hr, ha, ?_⟩
      split at h
      next ht =>
        cases h
        exact .inl ⟨ht, rfl⟩
      next ht =>
        split at h
        next hs =>
          refine .inr (.inl ⟨⟨hr, ha, ht, hs⟩, ?_⟩)
          rw [engineStep] at h
          split at h
          next i hi =>
            cases he : exec i s with
            | next u =>
              rw [he] at h
              cases h
              exact .inl ⟨i, u, hi, he, rfl⟩
            | fault r => rw [he] at h; cases h
            | refused r => rw [he] at h; cases h
          next f hf =>
            cases h
            exact .inr (.inl ⟨f, hf, rfl⟩)
          next hf =>
            cases h
            exact .inr (.inr ⟨hf, rfl⟩)
        next hs => cases h; exact .inr (.inr ⟨ht, by simp [hs], rfl⟩)
        next hs => cases h; exact .inr (.inr ⟨ht, by simp [hs], rfl⟩)
        next hs => cases h; exact .inr (.inr ⟨ht, by simp [hs], rfl⟩)

/-- The step of a running RESUME. -/
theorem step_of_running {s : State} (h : s.running) : step s = engineStep s := by
  obtain ⟨hr, ha, ht, hs⟩ := h
  simp [step, advance, hr, ha, ht, hs]

theorem Completes.sameSurroundings {s t : State} {i : Instr} (h : Completes s i t) : sameSurroundings s t := by
  cases h <;> exact ⟨rfl, rfl, rfl, rfl, rfl, rfl⟩

/-- Fault entry, and the return of the exit to the host. -/
theorem returnIfSuspended_takeFault (s : State) (f : BlockFault) :
    (s.takeFault f).returnIfSuspended = faultedRun s f :=
  State.returnIfSuspended_of_suspended (by simp)

/-- Everything a step of a running RESUME can do: complete its instruction, fault, or refuse the word. -/
theorem step_cases_of_running {s t : State} (hr : s.running) (h : step s = .next t) :
    (∃ i u, fetchInstr s = .ok i ∧ Completes s i u ∧ t = u.returnIfSuspended) ∨
      (∃ f, t = faultedRun s f ∧ ((∃ i, fetchInstr s = .ok i ∧ ExecFault s f) ∨ fetchInstr s = .error (.fault f))) ∨
      (fetchInstr s = .error .refuse ∧ t = { s with refused := true }) := by
  rw [step_of_running hr, engineStep] at h
  split at h
  next i hi =>
    rcases exec_cases i s with ⟨u, hu, hc⟩ | ⟨f, hf, he⟩
    · rw [hu] at h
      cases h
      exact .inl ⟨i, u, hi, hc, rfl⟩
    · rw [hf] at h
      cases h
      exact .inr (.inl ⟨f, returnIfSuspended_takeFault s f, .inl ⟨i, hi, he⟩⟩)
  next f hf =>
    cases h
    exact .inr (.inl ⟨f, returnIfSuspended_takeFault s f, .inr hf⟩)
  next hf =>
    cases h
    exact .inr (.inr ⟨hf, rfl⟩)

/-- The step of the host issuing a command. -/
theorem step_of_hostIssues {s : State} {c : Command} {cs : List Command} (h : s.hostIssues c cs) :
    step s = .next (issue c { s with commands := cs }) := by
  obtain ⟨hr, ha, ht, hc⟩ := h
  simp [step, advance, hr, ha, ht, hostMove, hc]

/-- A run whose first step goes on. -/
theorem run_next (k : Nat) {s t : State} (h : step s = .next t) :
    Sys2Proof.core.run (k + 1) s = Sys2Proof.core.run k t := by
  have h' : Sys2Proof.core.step s = .next t := h
  simp only [Host.Core.run, h']

/-- A run of one more step that goes on to the end takes its first step. -/
theorem run_succ_cases {k : Nat} {s u : State} (h : Sys2Proof.core.run (k + 1) s = .next u) :
    ∃ t, step s = .next t ∧ Sys2Proof.core.run k t = .next u := by
  cases hs : step s with
  | next t => exact ⟨t, rfl, run_next k hs ▸ h⟩
  | fault r =>
    have h' : Sys2Proof.core.step s = .fault r := hs
    simp only [Host.Core.run, h'] at h
    cases h
  | refused r =>
    have h' : Sys2Proof.core.step s = .refused r := hs
    simp only [Host.Core.run, h'] at h
    cases h

end Sys2Proof.Machine
end

