-- ==== Sys2Proof/Tests/Slice0.lean ====
section
/-! SUPPORT. Tests of the model, their results taken from the spec's vectors (95_test_vectors.md) and encodings
(30_encoding.md, opcode_table.json), and for each obligation a named witness that meets its hypotheses. -/

namespace Sys2Proof.Tests

open Sys2Proof Sys2Proof.Machine

/-! ## Helpers -/

/-- The word of an integer. -/
abbrev word (v : Int) : Word := BitVec.ofInt 64 v

def minWord : Word := word wordMin
def maxWord : Word := word wordMax

/-- The engine inside a RESUME, right after LOAD of a program, with a relative base. -/
def running (c : Config) (rb : Word) (p : List Word) : State :=
  { State.reset.load p with config := c, rb := rb, turn := .engine }

/-- The host about to issue commands, with the instance in a given status at `pc = 2`. -/
def hosted (st : Status) (cs : List Command) : State :=
  { State.reset.load [3, 2, 0] with pc := 2, status := st, commands := cs }

def wrapping : Config := ⟨.wrap, .unbounded, .ignore⟩
def refusing : Config := ⟨.fault, .unbounded, .refuse⟩
def bounded (c : Nat) : Config := ⟨.fault, .bounded c, .ignore⟩

/-- What a step leaves: `pc`, the status and one word of memory. -/
def after (s : State) (a : Nat) : Option (Nat × Status × Word) :=
  (nextOf (step s)).map fun t => (t.pc, t.status, t.mem.read a)

/-! ## WellFormed: one ill-formed term for each instruction with a write operand, and what is well-formed -/

theorem test_wf_add_immediate_destination : (Instr.add (.direct 1) (.direct 2) (.immediate 3)).wellFormed = false := by decide
theorem test_wf_mul_immediate_destination : (Instr.mul (.direct 1) (.direct 2) (.immediate 3)).wellFormed = false := by decide
theorem test_wf_lt_immediate_destination : (Instr.lt (.direct 1) (.direct 2) (.immediate 3)).wellFormed = false := by decide
theorem test_wf_eq_immediate_destination : (Instr.eq (.direct 1) (.direct 2) (.immediate 3)).wellFormed = false := by decide
theorem test_wf_in_immediate_destination : (Instr.inp (.immediate 3)).wellFormed = false := by decide
theorem test_wf_immediate_reads :
    (Instr.add (.immediate 1) (.immediate (-2)) (.relative (-3))).wellFormed = true ∧
      (Instr.jt (.immediate 1) (.immediate 2)).wellFormed = true ∧ (Instr.arb (.immediate 1)).wellFormed = true := by
  decide

/-! ## Decode: words written out from 30_encoding.md R71, R73, R74 and R82, a word of every operation -/

theorem test_decode_add : decode .ignore [1001, 100, 1, 100] = .ok (.add (.direct 100) (.immediate 1) (.direct 100), []) := by
  decide
theorem test_decode_mul : decode .ignore [1002, 4, 3, 4, 33] = .ok (.mul (.direct 4) (.immediate 3) (.direct 4), [33]) := by
  decide
theorem test_decode_in : decode .ignore [203, word (-1)] = .ok (.inp (.relative (-1)), []) := by decide
theorem test_decode_out : decode .ignore [204, word (-1)] = .ok (.out (.relative (-1)), []) := by decide
theorem test_decode_jt : decode .ignore [1105, 1, 7] = .ok (.jt (.immediate 1) (.immediate 7), []) := by decide
theorem test_decode_jf : decode .ignore [1006, 101, 0] = .ok (.jf (.direct 101) (.immediate 0), []) := by decide
theorem test_decode_lt : decode .ignore [20107, 5, 6, 7] = .ok (.lt (.immediate 5) (.direct 6) (.relative 7), []) := by decide
theorem test_decode_eq : decode .ignore [1008, 100, 16, 101] = .ok (.eq (.direct 100) (.immediate 16) (.direct 101), []) := by
  decide
theorem test_decode_arb : decode .ignore [109, 1] = .ok (.arb (.immediate 1), []) := by decide
theorem test_decode_halt : decode .ignore [99, 5] = .ok (.halt, [5]) := by decide

/-- The two pseudo-instructions are words of core instructions (30_encoding.md R97). -/
theorem test_decode_pseudo :
    decode .ignore [1001, 4, 0, 5] = .ok (.mov (.direct 4) (.direct 5), []) ∧
      decode .ignore [1105, 1, 7] = .ok (.jmp (.immediate 7), []) := by decide

/-- Vectors D-1 to D-8: illegal selectors, rejected by name. -/
theorem test_reject_selectors :
    ([0, 100, word (-1), word (-99), word (-100), word (-101), 98, 10] : List Word).map (decodeHeader .ignore) =
      ([0, 0, -1, -99, 0, -1, 98, 10] : List Int).map fun s => .error (.unknownOpcode s) := by decide

/-- Vectors D-9 to D-13: illegal mode digits, rejected by name with the lowest operand's digit. -/
theorem test_reject_modes :
    ([301, 30001, 3201, 4301, 3401] : List Word).map (decodeHeader .ignore) =
      ([3, 3, 3, 3, 4] : List Nat).map fun d => .error (.unknownMode d) := by decide

/-- Vectors D-16 to D-18 and D-22 to D-24: excess digits. -/
theorem test_excess_digits :
    ([199, 399, 10099] : List Word).map (decodeHeader .ignore) = List.replicate 3 (.ok ⟨.halt, []⟩) ∧
      ([199, 100001, 1000004] : List Word).map (decodeHeader .refuse) = List.replicate 3 (.error .excessDigits) := by decide

theorem test_reject_truncated : decode .ignore [1, 2, 3] = .error .truncated := by decide

/-- The host's numbering: `MUL [4], #3, [4]` in 256 bits, and HALT in 64. -/
theorem test_decodeTableWord :
    decodeTableWord 256 (1002 + 2 ^ 64 * 4 + 2 ^ 128 * 3 + 2 ^ 192 * 4) = some (.mul (.direct 4) (.immediate 3) (.direct 4)) ∧
      decodeTableWord 64 99 = some .halt ∧ decodeTableWord 64 1 = some (.add (.direct 0) (.direct 0) (.direct 0)) ∧
      decodeTableWord 64 77 = none := by decide

theorem test_withFetchWord :
    after (State.reset.withFetchWord 256 (1101 + 2 ^ 64 * 2 + 2 ^ 128 * 3 + 2 ^ 192 * 5)) 5 = some (4, .paused, 5) := by decide

/-! ## One step of each instruction (95_test_vectors.md, the ids of L2) -/

theorem test_add_A2 : after (running .spec 0 [1101, word (-2), word (-3), 5]) 5 = some (4, .paused, word (-5)) := by decide
theorem test_add_A4_wraps : after (running wrapping 0 [1101, maxWord, 1, 5]) 5 = some (4, .paused, minWord) := by decide
theorem test_mul_M7 : after (running .spec 0 [1102, word (-4294967296), 2147483648, 5]) 5 = some (4, .paused, minWord) := by
  decide
theorem test_mul_M6_overflows :
    after (running .spec 0 [1102, 4294967296, 2147483648, 5]) 5 = some (0, .exit (.fault .overflow), 0) := by decide
theorem test_lt_L4_signed : after (running .spec 0 [1107, minWord, maxWord, 5]) 5 = some (4, .paused, 1) := by decide
theorem test_lt_L5_source_is_destination : after (running .spec 0 [7, 5, 5, 5, 0, 9]) 5 = some (4, .paused, 0) := by decide
theorem test_eq_E1 : after (running .spec 0 [1108, 0, 0, 5]) 5 = some (4, .paused, 1) := by decide
theorem test_eq_E2 : after (running .spec 0 [1108, word (-1), 1, 5]) 5 = some (4, .paused, 0) := by decide
theorem test_in_I3 : after (running .spec 5 [203, word (-1)]) 4 = some (2, .awaiting 4, 0) := by decide
theorem test_in_I6_capacity :
    after (running (bounded 50) 0 [3, 100]) 0 = some (0, .exit (.fault .capacityExceeded), 3) := by decide
theorem test_out_O3 : after (running .spec 1 [204, word (-1)]) 0 = some (2, .outputting 204, 204) := by decide
theorem test_out_O1 : after (running .spec 0 [104, word (-7)]) 0 = some (2, .outputting (word (-7)), 104) := by decide
theorem test_jt_J3_negative_is_true : after (running .spec 0 [1105, word (-1), 7]) 0 = some (7, .paused, 1105) := by decide
theorem test_jt_J5_target_not_checked : after (running .spec 0 [1105, 0, word (-1)]) 0 = some (3, .paused, 1105) := by decide
theorem test_jf_J6 : after (running .spec 0 [1106, 0, 7]) 0 = some (7, .paused, 1106) := by decide
theorem test_jf_J8 :
    after (running .spec 0 [1106, 0, word (-5)]) 0 = some (0, .exit (.fault .negativeAddress), 1106) := by decide
theorem test_arb_B4_old_base : (nextOf (step (running .spec 1 [209, 2, 0, 7]))).map (·.rb) = some 8 := by decide
theorem test_arb_B5_overflows :
    (nextOf (step (running .spec maxWord [109, 1]))).map (fun t => (t.rb, t.status)) =
      some (maxWord, .exit (.fault .overflow)) := by decide
theorem test_halt_H1 : after (running .spec 0 [99]) 0 = some (0, .exit .halted, 99) := by decide

/-- Vector A-14: resolution before overflow (40_execution_cycle.md R106). -/
theorem test_order_A14 :
    after (running .spec 0 [11101, maxWord, 1, 0]) 0 = some (0, .exit (.fault .writeToImmediate), 11101) := by decide

/-- Vector I-8: refusal before resolution (40_execution_cycle.md R106). -/
theorem test_order_I8 : (nextOf (step (running refusing 0 [30103, 0]))).map (fun t => (t.refused, t.status)) =
    some (true, .paused) := by decide

/-- Vector P-2: FEED outside Awaiting (60_exceptions.md R181). -/
theorem test_feed_P2 : (nextOf (step (hosted .paused [.feed 1]))).map (fun t => (t.aborted, t.status, t.pc)) =
    some (some .feedWhileNotAwaiting, .paused, 2) := by decide

/-- Vector P-1: RESUME discards an output that was not read (60_exceptions.md R176). -/
theorem test_resume_P1 : (nextOf (step (hosted (.outputting 1) [.resume]))).map (fun t => (t.turn, t.status, t.replies)) =
    some (.engine, .paused, []) := by decide

/-! ## The end of a run (60_exceptions.md R187) -/

/-- Vector P-1: the outputs of `OUT #1`, `OUT #2` in order, and the state at the end. -/
theorem test_yielded_P1 :
    (nextOf (Sys2Proof.core.run 8
      { State.reset with commands := [.load [104, 1, 104, 2, 99], .resume, .resume, .resume] })).map (·.yielded) =
      some (some ⟨[1, 2], Memory.image 0 [104, 1, 104, 2, 99], 4, 0, .halted⟩) := by decide

/-- A second instance yields only its own outputs. -/
theorem test_yielded_second_instance :
    (nextOf (Sys2Proof.core.run 8
      { State.reset with commands := [.load [104, 1, 99], .resume, .resume, .load [99], .resume] })).map
        (fun t => t.yielded.map (·.outputs)) = some (some []) := by decide

/-- Vector P-4: a run whose host aborted has not ended, whatever its status. -/
theorem test_aborted_P4 :
    (nextOf (step (hosted (.exit .halted) [.feed 3]))).map (fun t => (t.status, t.endReason)) =
      some (.exit .halted, none) := by decide

/-! ## Witnesses: states and operands that meet the hypotheses of each obligation, at the ends of their ranges -/

/-- The engine with an empty memory and a given `pc`. -/
def atPc (c : Config) (pc : Nat) : State := { running c 0 [] with pc := pc }

theorem running_running (c : Config) (rb : Word) (p : List Word) : (running c rb p).running := ⟨rfl, rfl, rfl, rfl⟩

theorem hosted_hostIssues (st : Status) (c : Command) (cs : List Command) : (hosted st (c :: cs)).hostIssues c cs :=
  ⟨rfl, rfl, rfl, rfl⟩

/-! ### Encoding -/

theorem witness_EncodeOfCanonicalDecode :
    decode .refuse [21101, 4, 3, maxWord, 33] = .ok (.add (.immediate 4) (.immediate 3) (.relative maxWord), [33]) := by
  decide

/-- A selector at each end of each range of illegal selectors, and beside it. -/
theorem witness_UnknownOpcodeExactlyForIllegalSelectors :
    ([0, 10, 98, word (-99), word (-1), minWord] : List Word).all (fun w =>
      decide (w.toInt.tmod 100 ∉ ([1, 2, 3, 4, 5, 6, 7, 8, 9, 99] : List Int))) ∧
    ([1, 9, 99, 199, maxWord] : List Word).all (fun w =>
      decide (w.toInt.tmod 100 ∈ ([1, 2, 3, 4, 5, 6, 7, 8, 9, 99] : List Int))) := by decide

theorem witness_NegativeWordsNeverDecode :
    minWord.toInt < 0 ∧ (word (-1)).toInt < 0 ∧
      ∃ o ∈ (Instr.add (.direct 0) (.direct 0) (.relative minWord)).operands, o.word.toInt < 0 :=
  ⟨by decide, by decide, .relative minWord, by decide, by decide⟩

theorem witness_ModeDigitsAreWordDigits : 0 ≤ (0 : Word).toInt ∧ 0 ≤ maxWord.toInt := by decide

theorem witness_UnknownModeReportsLowestOperand :
    (∃ op, Opcode.ofSelector ((30001 : Word).toInt.tmod 100) = some op ∧ 2 < op.arity ∧
      digit (modeField 30001) 0 = 0 ∧ digit (modeField 30001) 1 = 0 ∧ digit (modeField 30001) 2 = 3) ∧
    (∃ op, Opcode.ofSelector ((904 : Word).toInt.tmod 100) = some op ∧ 0 < op.arity ∧ digit (modeField 904) 0 = 9) :=
  ⟨⟨.add, by decide⟩, ⟨.out, by decide⟩⟩

/-- No excess digit, and the greatest number of them a word holds. -/
theorem witness_ExcessDigitsIgnored :
    ([0, 92233720368547757] : List Nat).all (fun e =>
      decide (Instr.halt.opcode.selector + 100 * modesValue (Instr.halt.operands.map Operand.mode) +
        10 ^ (Instr.halt.opcode.arity + 2) * (e : Int) ≤ wordMax)) := by decide

theorem witness_ExcessDigitsRefused :
    ([1, 92233720368547757] : List Nat).all (fun e =>
      decide (0 < e ∧ Instr.halt.opcode.selector + 100 * modesValue (Instr.halt.operands.map Operand.mode) +
        10 ^ (Instr.halt.opcode.arity + 2) * (e : Int) ≤ wordMax)) := by decide

/-! ### Memory, checks and operands -/

theorem witness_MemoryPrimitives :
    (running .spec 0 []).config.capacity = .unbounded ∧
      (running (bounded 5) 0 []).config.capacity = .bounded 5 ∧ 4 < 5 ∧ 5 ≤ 5 := by decide

theorem witness_CanonicalMemoriesAgree :
    (((Memory.write [] 0 1).write addrMax 7).write addrMax 0).wf ∧ (Memory.write [] 0 1).wf ∧
      ∀ a, (((Memory.write [] 0 1).write addrMax 7).write addrMax 0).read a = (Memory.write [] 0 1).read a :=
  ⟨by decide, by decide, fun _ => rfl⟩

theorem witness_LoadGivesProgramImage :
    (hosted (.exit .halted) [.load [7, 8]]).hostIssues (.load [7, 8]) [] ∧
      programFits .unbounded [7, 8] = true ∧ programFits (.bounded 2) [7, 8] = true :=
  ⟨hosted_hostIssues _ _ _, by decide, by decide⟩

theorem witness_RangeChecks :
    wordMin ≤ wordMin ∧ wordMin ≤ wordMax ∧ wordMax ≤ wordMax ∧ wordMin - 1 < wordMin ∧ wordMax < wordMax + 1 ∧
      addrMax < addrMax + 1 ∧ addrMax ≤ addrMax := by decide

/-- The addresses -1, 0, `ADDR_MAX` and `ADDR_MAX + 1`, and the last of them wrapped. -/
theorem witness_RelativeAddresses :
    (running .spec 5 []).config.overflow = .fault ∧
      (running .spec 5 []).rb.toInt + (word (-6)).toInt = -1 ∧ (running .spec 5 []).rb.toInt + (word (-5)).toInt = 0 ∧
      (running .spec maxWord []).rb.toInt + (0 : Word).toInt = addrMax ∧
      (addrMax : Int) < (running .spec maxWord []).rb.toInt + (1 : Word).toInt ∧
      (running wrapping maxWord []).config.overflow = .wrap ∧
      (2 ^ 64 : Int) ∣ minWord.toInt - ((running wrapping maxWord []).rb.toInt + (1 : Word).toInt) ∧ minWord.toInt < 0 ∧
      (2 ^ 64 : Int) ∣ maxWord.toInt - ((running wrapping maxWord []).rb.toInt + (0 : Word).toInt) ∧ 0 ≤ maxWord.toInt := by
  decide

theorem witness_OperandResolution :
    (word (-1)).toInt < 0 ∧ 0 ≤ (0 : Word).toInt ∧ relAddr (running .spec maxWord []) 0 = .ok addrMax ∧
      relAddr (running .spec 0 []) (word (-1)) = .error .negativeAddress ∧
      relAddr (running .spec maxWord []) 1 = .error .overflow ∧
      resolveWrite (running .spec 0 []) (.direct maxWord) = .ok addrMax := by decide

/-- Vectors A-11, A-9 and A-13, and a second operand that faults. -/
theorem witness_FirstOperandFaultIsTaken :
    (Instr.roled (.add (.direct (word (-1))) (.direct 0) (.direct 5))).findSome? (operandFault (running .spec 0 [])) =
        some .negativeAddress ∧
      (Instr.roled (.add (.immediate 1) (.immediate 1) (.immediate 5))).findSome? (operandFault (running .spec 0 [])) =
        some .writeToImmediate ∧
      (Instr.roled (.add (.direct (word (-1))) (.immediate 0) (.immediate 0))).findSome?
        (operandFault (running .spec 0 [])) = some .negativeAddress ∧
      (Instr.roled (.jt (.immediate 0) (.direct 5))).findSome? (operandFault (running (bounded 5) 0 [])) =
        some .capacityExceeded := by decide

/-! ### Results -/

theorem witness_AddStoresSum :
    (resolveRead (atPc .spec (addrMax - 4)) (.immediate maxWord) = .ok maxWord ∧
      resolveRead (atPc .spec (addrMax - 4)) (.immediate 0) = .ok 0 ∧
      resolveWrite (atPc .spec (addrMax - 4)) (.direct maxWord) = .ok addrMax ∧
      (atPc .spec (addrMax - 4)).pc + 4 ≤ addrMax ∧
      Capacity.holds (atPc .spec (addrMax - 4)).config.capacity addrMax = true ∧
      maxWord.toInt = maxWord.toInt + (0 : Word).toInt) ∧
    (resolveRead (running wrapping 0 []) (.immediate maxWord) = .ok maxWord ∧
      resolveRead (running wrapping 0 []) (.immediate 1) = .ok 1 ∧
      resolveWrite (running wrapping 0 []) (.direct 5) = .ok 5 ∧ (running wrapping 0 []).pc + 4 ≤ addrMax ∧
      Capacity.holds (running wrapping 0 []).config.capacity 5 = true ∧
      (running wrapping 0 []).config.overflow = .wrap ∧
      (2 ^ 64 : Int) ∣ minWord.toInt - (maxWord.toInt + (1 : Word).toInt)) := by decide

theorem witness_MulStoresProduct :
    (resolveRead (atPc .spec (addrMax - 4)) (.immediate (word (-4294967296))) = .ok (word (-4294967296)) ∧
      resolveRead (atPc .spec (addrMax - 4)) (.immediate 2147483648) = .ok 2147483648 ∧
      resolveWrite (atPc .spec (addrMax - 4)) (.direct maxWord) = .ok addrMax ∧
      (atPc .spec (addrMax - 4)).pc + 4 ≤ addrMax ∧
      Capacity.holds (atPc .spec (addrMax - 4)).config.capacity addrMax = true ∧
      minWord.toInt = (word (-4294967296)).toInt * (2147483648 : Word).toInt) ∧
    (resolveRead (running wrapping 0 []) (.immediate minWord) = .ok minWord ∧
      resolveRead (running wrapping 0 []) (.immediate (word (-1))) = .ok (word (-1)) ∧
      resolveWrite (running wrapping 0 []) (.direct 5) = .ok 5 ∧ (running wrapping 0 []).pc + 4 ≤ addrMax ∧
      Capacity.holds (running wrapping 0 []).config.capacity 5 = true ∧
      (running wrapping 0 []).config.overflow = .wrap ∧
      (2 ^ 64 : Int) ∣ minWord.toInt - minWord.toInt * (word (-1)).toInt) := by decide

/-- The hypotheses of both comparisons, with a destination at the end of a bounded store. -/
theorem witness_LtStoresSignedComparison :
    resolveRead (running (bounded 6) 0 []) (.immediate minWord) = .ok minWord ∧
      resolveRead (running (bounded 6) 0 []) (.immediate maxWord) = .ok maxWord ∧
      resolveWrite (running (bounded 6) 0 []) (.direct 5) = .ok 5 ∧ (running (bounded 6) 0 []).pc + 4 ≤ addrMax ∧
      Capacity.holds (running (bounded 6) 0 []).config.capacity 5 = true ∧ minWord.toInt < maxWord.toInt := by decide

theorem witness_EqStoresEquality :
    resolveRead (atPc .spec (addrMax - 4)) (.direct maxWord) = .ok 0 ∧
      resolveRead (atPc .spec (addrMax - 4)) (.immediate 0) = .ok 0 ∧
      resolveWrite (atPc .spec (addrMax - 4)) (.direct maxWord) = .ok addrMax ∧
      (atPc .spec (addrMax - 4)).pc + 4 ≤ addrMax ∧
      Capacity.holds (atPc .spec (addrMax - 4)).config.capacity addrMax = true := by decide

theorem witness_InLatchesDestination :
    resolveWrite (atPc .spec (addrMax - 2)) (.direct maxWord) = .ok addrMax ∧
      Capacity.holds (atPc .spec (addrMax - 2)).config.capacity addrMax = true ∧
      (atPc .spec (addrMax - 2)).pc + 2 ≤ addrMax := by decide

theorem witness_OutProducesValue :
    resolveRead (atPc .spec (addrMax - 2)) (.direct maxWord) = .ok 0 ∧ (atPc .spec (addrMax - 2)).pc + 2 ≤ addrMax := by
  decide

theorem witness_JtBranches :
    resolveRead (atPc .spec (addrMax - 3)) (.immediate (word (-1))) = .ok (word (-1)) ∧
      resolveRead (atPc .spec (addrMax - 3)) (.immediate 0) = .ok 0 ∧ (word (-1)).toInt ≠ 0 ∧ 0 ≤ (0 : Word).toInt ∧
      (0 : Word).toInt = 0 ∧ (atPc .spec (addrMax - 3)).pc + 3 ≤ addrMax := by decide

theorem witness_JfBranches :
    resolveRead (atPc .spec (addrMax - 3)) (.immediate (word (-1))) = .ok (word (-1)) ∧
      resolveRead (atPc .spec (addrMax - 3)) (.immediate 0) = .ok 0 ∧
      resolveRead (atPc .spec (addrMax - 3)) (.immediate maxWord) = .ok maxWord ∧ 0 ≤ maxWord.toInt ∧
      (word (-1)).toInt ≠ 0 ∧ (atPc .spec (addrMax - 3)).pc + 3 ≤ addrMax := by decide

theorem witness_JumpTargetsAreChecked :
    minWord.toInt < 0 ∧ 0 ≤ maxWord.toInt ∧ 0 ≤ (0 : Word).toInt ∧
      resolveRead (atPc .spec (addrMax - 3)) (.immediate 1) = .ok 1 ∧
      resolveRead (atPc .spec (addrMax - 3)) (.immediate 0) = .ok 0 ∧
      resolveRead (atPc .spec (addrMax - 3)) (.immediate (word (-1))) = .ok (word (-1)) ∧ (word (-1)).toInt < 0 ∧
      (1 : Word).toInt ≠ 0 ∧ (0 : Word).toInt = 0 ∧ (atPc .spec (addrMax - 3)).pc + 3 ≤ addrMax := by decide

theorem witness_ArbAdjustsRelativeBase :
    (resolveRead (running .spec 5 [0, 7]) (.relative (word (-4))) = .ok 7 ∧ (running .spec 5 [0, 7]).pc + 2 ≤ addrMax ∧
      (12 : Word).toInt = (running .spec 5 [0, 7]).rb.toInt + (7 : Word).toInt) ∧
    (resolveRead (running wrapping maxWord []) (.immediate 1) = .ok 1 ∧ (running wrapping maxWord []).pc + 2 ≤ addrMax ∧
      (running wrapping maxWord []).config.overflow = .wrap ∧
      (2 ^ 64 : Int) ∣ minWord.toInt - ((running wrapping maxWord []).rb.toInt + (1 : Word).toInt)) := by decide

/-- One past the word range: a sum, a product and a new base. -/
theorem witness_ArithmeticOverflowFaults :
    (running .spec 1 []).config.overflow = .fault ∧
      resolveRead (running .spec 1 []) (.immediate maxWord) = .ok maxWord ∧
      resolveRead (running .spec 1 []) (.immediate minWord) = .ok minWord ∧
      resolveRead (running .spec 1 []) (.immediate 1) = .ok 1 ∧
      resolveRead (running .spec 1 []) (.immediate (word (-1))) = .ok (word (-1)) ∧
      resolveWrite (running .spec 1 []) (.direct 5) = .ok 5 ∧ ¬ inWord (maxWord.toInt + (1 : Word).toInt) ∧
      ¬ inWord (minWord.toInt * (word (-1)).toInt) ∧ ¬ inWord ((running .spec 1 []).rb.toInt + maxWord.toInt) := by decide

theorem witness_NextPcOverflowFaults :
    resolveRead (atPc .spec addrMax) (.immediate 0) = .ok 0 ∧ resolveRead (atPc .spec addrMax) (.immediate 1) = .ok 1 ∧
      resolveWrite (atPc .spec addrMax) (.direct 5) = .ok 5 ∧
      addrMax < (atPc .spec (addrMax - 3)).pc + 4 ∧ addrMax < (atPc .spec (addrMax - 2)).pc + 3 ∧
      addrMax < (atPc .spec (addrMax - 1)).pc + 2 ∧
      Capacity.holds (atPc .spec (addrMax - 1)).config.capacity 5 = true := by decide

/-- The first destination beyond a store of 5 words. -/
theorem witness_BeyondCapacityFaults :
    (running (bounded 5) 0 []).config.capacity = .bounded 5 ∧ 5 ≤ 5 ∧
      resolveRead (running (bounded 5) 0 []) (.immediate 1) = .ok 1 ∧
      resolveWrite (running (bounded 5) 0 []) (.direct 5) = .ok 5 ∧ (running (bounded 5) 0 []).pc + 4 ≤ addrMax ∧
      inWord ((1 : Word).toInt + (1 : Word).toInt) ∧ inWord ((1 : Word).toInt * (1 : Word).toInt) := by decide

/-! ### Frames and faults -/

/-- Both clauses: a write operand that resolves, and one that faults. -/
theorem witness_StoringFrame :
    (∃ t, exec (.add (.immediate 1) (.immediate 2) (.direct 5)) (running .spec 0 []) = .next t ∧ t.status = .paused) ∧
      resolveWrite (running .spec 0 []) (.direct 5) = .ok 5 ∧
      (∃ t, exec (.mul (.immediate 1) (.immediate 2) (.immediate 5)) (running .spec 0 []) = .next t ∧
        t.status = .exit (.fault .writeToImmediate)) ∧
      resolveWrite (running .spec 0 []) (.immediate 5) = .error .writeToImmediate :=
  ⟨⟨_, rfl, rfl⟩, by decide, ⟨_, rfl, rfl⟩, by decide⟩

theorem witness_JumpFrame :
    (∃ t, exec (.jt (.immediate 1) (.immediate 7)) (running .spec 0 []) = .next t ∧ t.pc = 7) ∧
      ∃ t, exec (.jf (.immediate 1) (.immediate 7)) (running .spec 0 []) = .next t ∧ t.pc = 3 :=
  ⟨⟨_, rfl, rfl⟩, ⟨_, rfl, rfl⟩⟩

/-- Both an ARB that completes and one that changes the status. -/
theorem witness_ArbFrame :
    (∃ t, exec (.arb (.immediate 1)) (running .spec 0 []) = .next t ∧ t.rb = 1) ∧
      ∃ t, exec (.arb (.immediate 1)) (running .spec maxWord []) = .next t ∧ t.status = .exit (.fault .overflow) :=
  ⟨⟨_, rfl, rfl⟩, ⟨_, rfl, rfl⟩⟩

theorem witness_SuspendingFrame :
    (∃ t, exec (.inp (.direct 5)) (running .spec 0 []) = .next t ∧ t.status = .awaiting 5) ∧
      (∃ t, exec (.out (.immediate 5)) (running .spec 0 []) = .next t ∧ t.status = .outputting 5) ∧
      ∃ t, exec .halt (running .spec 0 []) = .next t ∧ t.status = .exit .halted :=
  ⟨⟨_, rfl, rfl⟩, ⟨_, rfl, rfl⟩, ⟨_, rfl, rfl⟩⟩

/-- A fault of the fetch, of the decoder, of an operand and of the execution. -/
theorem witness_FaultsArePrecise :
    (running (bounded 0) 0 []).running ∧
      (∃ t, step (running (bounded 0) 0 []) = .next t ∧ t.status = .exit (.fault .capacityExceeded)) ∧
      (∃ t, step (running .spec 0 [77]) = .next t ∧ t.status = .exit (.fault (.unknownOpcode 77))) ∧
      (∃ t, step (running .spec 0 [4, word (-1)]) = .next t ∧ t.status = .exit (.fault .negativeAddress)) ∧
      (∃ t, step (running .spec 0 [1101, maxWord, 1, 5]) = .next t ∧ t.status = .exit (.fault .overflow)) ∧
      (hosted (.exit (.fault .overflow)) [.resume]).status = .exit (.fault .overflow) ∧
      ∃ t, step (hosted (.exit (.fault .overflow)) [.resume]) = .next t ∧ t.replies ≠ [] :=
  ⟨running_running _ _ _, ⟨_, rfl, by decide⟩, ⟨_, rfl, by decide⟩, ⟨_, rfl, by decide⟩, ⟨_, rfl, by decide⟩, rfl,
    ⟨_, rfl, by decide⟩⟩

theorem witness_ImmediateWriteNeverCompletes :
    (Instr.lt (.immediate 1) (.direct 5) (.immediate 3)).wellFormed = false ∧
      ∀ o, (Role.read, o) ∈ (Instr.lt (.immediate 1) (.direct 5) (.immediate 3)).roled →
        ∃ v, resolveRead (running .spec 0 []) o = .ok v := by
  refine ⟨by decide, fun o h => ?_⟩
  simp only [Instr.roled, Instr.opcode, Opcode.roles, Instr.operands, List.zip_cons_cons, List.zip_nil_right,
    List.mem_cons, Prod.mk.injEq, List.not_mem_nil, or_false, reduceCtorEq, false_and, true_and] at h
  rcases h with rfl | rfl
  · exact ⟨1, by decide⟩
  · exact ⟨0, by decide⟩

/-! ### The step -/

/-- An instruction after which the run goes on, and one after which RESUME returns. -/
theorem witness_StepRunsDecodedInstruction :
    (running .spec 0 [1101, 2, 3, 5]).running ∧
      decode .ignore [1101, 2, 3, 5] = .ok (.add (.immediate 2) (.immediate 3) (.direct 5), []) ∧
      wordsAtPc (running .spec 0 [1101, 2, 3, 5]) [1101, 2, 3, 5] ∧
      (∃ t, exec (.add (.immediate 2) (.immediate 3) (.direct 5)) (running .spec 0 [1101, 2, 3, 5]) = .next t ∧
        t.status = .paused) ∧
      decode .ignore [99] = .ok (.halt, []) ∧ wordsAtPc (running .spec 0 [99]) [99] ∧
      ∃ t, exec .halt (running .spec 0 [99]) = .next t ∧ t.status ≠ .paused := by
  refine ⟨running_running _ _ _, by decide, ?_, ⟨_, rfl, rfl⟩, by decide, ?_, ⟨_, rfl, by decide⟩⟩ <;>
    (unfold wordsAtPc; decide)

/-- The end of the address space with `JT` at `ADDR_MAX - 1`, and the end of a store of one word. -/
theorem witness_FetchFaultsInOrder :
    Capacity.holds (running (bounded 0) 0 []).config.capacity 0 = false ∧
      decodeHeader .ignore ((running .spec 0 [98]).mem.read 0) = .error (.unknownOpcode 98) ∧
      decodeHeader .ignore ((running .spec 0 [301]).mem.read 0) = .error (.unknownMode 3) ∧
      decodeHeader .ignore (((atPc .spec (addrMax - 1)).store (addrMax - 1) 1105).mem.read (addrMax - 1)) =
        .ok ⟨.jt, [.immediate, .immediate]⟩ ∧
      (∀ j, 1 ≤ j → j < 2 → (atPc .spec (addrMax - 1)).pc + j ≤ addrMax ∧
        Capacity.holds (atPc .spec (addrMax - 1)).config.capacity ((atPc .spec (addrMax - 1)).pc + j) = true) ∧
      addrMax < (atPc .spec (addrMax - 1)).pc + 2 ∧
      decodeHeader .ignore ((running (bounded 1) 0 [4]).mem.read 0) = .ok ⟨.out, [.direct]⟩ ∧
      0 + 1 ≤ addrMax ∧ Capacity.holds (running (bounded 1) 0 [4]).config.capacity (0 + 1) = false := by
  refine ⟨by decide, by decide, by decide, by decide, fun j h1 h2 => ?_, by decide⟩
  obtain rfl : j = 1 := by omega
  decide

theorem witness_RefusalSetsMarkAndStops :
    (running refusing 0 [199]).running ∧ Capacity.holds refusing.capacity 0 = true ∧
      decodeHeader refusing.excess ((running refusing 0 [199]).mem.read 0) = .error .excessDigits ∧
      ({ running refusing 0 [199] with refused := true } : State).refused = true :=
  ⟨running_running _ _ _, by decide, by decide, rfl⟩

theorem witness_NoRefusalUnderIgnore :
    (running .spec 0 [199]).config.excess = .ignore ∧ (running .spec 0 [199]).refused = false ∧
      ∃ t, step (running .spec 0 [199]) = .next t := ⟨rfl, rfl, ⟨_, rfl⟩⟩

theorem witness_OnlyArbWritesRelativeBase :
    (∃ t, step (running .spec 0 [109, 1]) = .next t ∧ t.rb ≠ (running .spec 0 [109, 1]).rb) ∧
      ∃ t, step { hosted .paused [.load []] with rb := 5 } = .next t ∧ t.rb ≠ 5 :=
  ⟨⟨_, rfl, by decide⟩, ⟨_, rfl, by decide⟩⟩

/-- A store, a FEED and a LOAD that change memory. -/
theorem witness_MemoryChangesOnlyByStores :
    (∃ t, step (running .spec 0 [1101, 2, 3, 5]) = .next t ∧ t.mem ≠ (running .spec 0 [1101, 2, 3, 5]).mem) ∧
      (∃ t, step (hosted (.awaiting 2) [.feed 9]) = .next t ∧ t.mem ≠ (hosted (.awaiting 2) [.feed 9]).mem) ∧
      ∃ t, step (hosted .paused [.load []]) = .next t ∧ t.mem ≠ (hosted .paused [.load []]).mem :=
  ⟨⟨_, rfl, by decide⟩, ⟨_, rfl, by decide⟩, ⟨_, rfl, by decide⟩⟩

theorem witness_AtMostOneWordWritten :
    (running .spec 0 [1101, 2, 3, 5]).running ∧
      ∃ t, step (running .spec 0 [1101, 2, 3, 5]) = .next t ∧ t.mem.read 5 ≠ (running .spec 0 [1101, 2, 3, 5]).mem.read 5 :=
  ⟨running_running _ _ _, ⟨_, rfl, by decide⟩⟩

/-- One step for each kind of transition: IN, OUT, HALT, a fault, RESUME, FEED, LOAD. -/
theorem witness_LegalStatusTransitions :
    (∃ t, step (running .spec 0 [3, 5]) = .next t ∧ t.status = .awaiting 5) ∧
      (∃ t, step (running .spec 0 [104, 5]) = .next t ∧ t.status = .outputting 5) ∧
      (∃ t, step (running .spec 0 [99]) = .next t ∧ t.status = .exit .halted) ∧
      (∃ t, step (running .spec 0 [77]) = .next t ∧ t.status = .exit (.fault (.unknownOpcode 77))) ∧
      (∃ t, step (hosted (.outputting 5) [.resume]) = .next t ∧ t.status = .paused) ∧
      (∃ t, step (hosted (.awaiting 2) [.feed 9]) = .next t ∧ t.status = .paused) ∧
      ∃ t, step (hosted (.exit .halted) [.load []]) = .next t ∧ t.status = .paused :=
  ⟨⟨_, rfl, by decide⟩, ⟨_, rfl, by decide⟩, ⟨_, rfl, by decide⟩, ⟨_, rfl, by decide⟩, ⟨_, rfl, by decide⟩,
    ⟨_, rfl, by decide⟩, ⟨_, rfl, by decide⟩⟩

/-- A run of three steps whose last command aborts the host, and of its first two, after which it has not. -/
theorem witness_ExitIsTerminal :
    (hosted (.exit .halted) [.resume, .inspect 0, .feed 1]).status = .exit .halted ∧
      (hosted (.exit .halted) [.resume, .inspect 0, .feed 1]).turn = .host ∧
      (∀ p, Command.load p ∉ (hosted (.exit .halted) [.resume, .inspect 0, .feed 1]).commands) ∧
      (∃ t, Sys2Proof.core.run 2 (hosted (.exit .halted) [.resume, .inspect 0, .feed 1]) = .next t ∧ t.aborted = none) ∧
      ∃ t, Sys2Proof.core.run 3 (hosted (.exit .halted) [.resume, .inspect 0, .feed 1]) = .next t ∧ t.aborted ≠ none :=
  ⟨rfl, rfl, fun p h => by simp [hosted] at h, ⟨_, rfl, rfl⟩, ⟨_, rfl, by decide⟩⟩

theorem witness_ControlReturnsOnlyAtBoundaries :
    (running .spec 0 [3, 5]).running ∧ (∃ t, step (running .spec 0 [3, 5]) = .next t ∧ t.status = .awaiting 5) ∧
      (∃ t, step (running .spec 0 [104, 5]) = .next t ∧ t.status = .outputting 5) ∧
      (∃ t, step (running .spec 0 [99]) = .next t ∧ t.status = .exit .halted) ∧
      ∃ t, step (running .spec 0 [1105, 1, 0]) = .next t ∧ t.status = .paused :=
  ⟨running_running _ _ _, ⟨_, rfl, by decide⟩, ⟨_, rfl, by decide⟩, ⟨_, rfl, by decide⟩, ⟨_, rfl, by decide⟩⟩

/-- Each storing instruction, with a destination that is the next instruction word, its last operand word, or `ADDR_MAX`, and
vector P-5. -/
theorem witness_FetchSeesEarlierWrites :
    ((running .spec 0 [1101, 98, 1, 4]).running ∧
      fetchInstr (running .spec 0 [1101, 98, 1, 4]) = .ok (.add (.immediate 98) (.immediate 1) (.direct 4)) ∧
      resolveRead (running .spec 0 [1101, 98, 1, 4]) (.immediate 98) = .ok 98 ∧
      resolveRead (running .spec 0 [1101, 98, 1, 4]) (.immediate 1) = .ok 1 ∧
      resolveWrite (running .spec 0 [1101, 98, 1, 4]) (.direct 4) = .ok ((running .spec 0 [1101, 98, 1, 4]).pc + 4) ∧
      0 + 4 ≤ addrMax ∧ Capacity.holds Config.spec.capacity 4 = true ∧
      (99 : Word).toInt = (98 : Word).toInt + (1 : Word).toInt) ∧
    (fetchInstr (running wrapping 0 [1102, minWord, word (-1), 7]) =
        .ok (.mul (.immediate minWord) (.immediate (word (-1))) (.direct 7)) ∧
      (running wrapping 0 [1102, minWord, word (-1), 7]).config.overflow = .wrap ∧
      (2 ^ 64 : Int) ∣ minWord.toInt - minWord.toInt * (word (-1)).toInt) ∧
    (fetchInstr (running .spec 0 [1107, 1, 2, maxWord]) = .ok (.lt (.immediate 1) (.immediate 2) (.direct maxWord)) ∧
      resolveWrite (running .spec 0 [1107, 1, 2, maxWord]) (.direct maxWord) = .ok addrMax) ∧
    fetchInstr (running .spec 0 [1108, 1, 1, 5]) = .ok (.eq (.immediate 1) (.immediate 1) (.direct 5)) ∧
    (hosted (.awaiting 2) [.feed 99, .resume]).hostIssues (.feed 99) [.resume] ∧
      (hosted (.awaiting 2) [.feed 99, .resume]).status = .awaiting (hosted (.awaiting 2) [.feed 99, .resume]).pc ∧
      2 ≤ addrMax ∧ Capacity.holds (hosted (.awaiting 2) [.feed 99, .resume]).config.capacity 2 = true :=
  ⟨⟨running_running _ _ _, by decide⟩, by decide, by decide, by decide, hosted_hostIssues _ _ _, by decide, by decide,
    by decide⟩

theorem witness_ConfigNeverChanges :
    ∃ t, step (hosted .paused [.load [7]]) = .next t ∧ t.mem = [(0, 7)] := ⟨_, rfl, by decide⟩

theorem witness_EngineIgnoresHost : (running .spec 0 [99]).turn = .engine := rfl

/-! ### The host's commands -/

theorem witness_ResumeFromEachStatus :
    (hosted (.awaiting 2) [.resume]).hostIssues .resume [] ∧ (hosted (.awaiting 2) [.resume]).status = .awaiting 2 ∧
      (hosted (.exit .halted) [.resume]).hostIssues .resume [] ∧
      (hosted (.outputting 7) [.resume]).hostIssues .resume [] ∧ (hosted .paused [.resume]).hostIssues .resume [] :=
  ⟨hosted_hostIssues _ _ _, rfl, hosted_hostIssues _ _ _, hosted_hostIssues _ _ _, hosted_hostIssues _ _ _⟩

/-- A destination at `ADDR_MAX`, in a state that meets the invariant. -/
theorem witness_FeedCompletesInput :
    (hosted (.awaiting addrMax) [.feed 1]).hostIssues (.feed 1) [] ∧
      (hosted (.awaiting addrMax) [.feed 1]).status = .awaiting addrMax ∧ Inv (hosted (.awaiting addrMax) [.feed 1]) :=
  ⟨hosted_hostIssues _ _ _, rfl, by decide, by decide, by decide, ⟨by decide, by decide⟩, nofun, nofun⟩

/-- Vectors P-2, P-3 and P-4. -/
theorem witness_FeedOutsideAwaitingAborts :
    ([.paused, .outputting 1, .exit .halted] : List Status).all (fun st =>
      decide (st.awaitAddr = none)) ∧ (hosted .paused [.feed 1]).hostIssues (.feed 1) [] ∧
      (∀ dst, (hosted .paused [.feed 1]).status ≠ .awaiting dst) ∧
      (∀ dst, (hosted (.outputting 1) [.feed 1]).status ≠ .awaiting dst) ∧
      ∀ dst, (hosted (.exit .halted) [.feed 1]).status ≠ .awaiting dst :=
  ⟨by decide, hosted_hostIssues _ _ _, nofun, nofun, nofun⟩

theorem witness_InspectReadsOnly :
    (hosted .paused [.inspect addrMax]).hostIssues (.inspect addrMax) [] ∧ addrMax ≤ addrMax ∧
      (hosted .paused [.abandon]).hostIssues .abandon [] :=
  ⟨hosted_hostIssues _ _ _, le_refl _, hosted_hostIssues _ _ _⟩

theorem witness_FeedAndResumeWake :
    (hosted (.awaiting 2) [.feed 99, .resume]).hostIssues (.feed 99) [.resume] ∧
      (hosted (.awaiting 2) [.feed 99, .resume]).status = .awaiting 2 := ⟨hosted_hostIssues _ _ _, rfl⟩

/-! ### The status register and the invariant -/

/-- The payloads at the ends of their ranges, and a latched destination at `ADDR_MAX`. -/
theorem witness_StatusRegisterFields :
    (-99 : Int) ≤ -99 ∧ (98 : Int) ≤ 98 ∧ 3 ≤ 3 ∧ 9 ≤ 9 ∧ Inv (hosted (.awaiting addrMax) []) ∧
      (hosted (.awaiting addrMax) []).status.awaitAddr = some addrMax :=
  ⟨by decide, by decide, by decide, by decide,
    ⟨by decide, by decide, by decide, ⟨by decide, by decide⟩, nofun, nofun⟩, rfl⟩

/-- Under `Unbounded`, a status that was this fault before the step stays it: the host has nothing to issue. -/
theorem witness_CapacityExceededOnlyWhenBounded :
    (hosted (.exit (.fault .capacityExceeded)) []).config.capacity = .unbounded ∧
      ∃ t, step (hosted (.exit (.fault .capacityExceeded)) []) = .next t ∧
        t.status = .exit (.fault .capacityExceeded) := ⟨rfl, ⟨_, rfl, rfl⟩⟩

/-- A step of the engine and one of the host, each from a state that meets the invariant. -/
theorem witness_StepKeepsInvariant :
    Inv (running .spec 5 [1101, 2, 3, 5]) ∧ (∃ t, step (running .spec 5 [1101, 2, 3, 5]) = .next t ∧ t.pc = 4) ∧
      Inv (hosted (.awaiting 2) [.feed 9]) ∧ ∃ t, step (hosted (.awaiting 2) [.feed 9]) = .next t ∧ t.status = .paused :=
  ⟨⟨by decide, by decide, by decide, trivial, fun _ => rfl, nofun⟩, ⟨_, rfl, by decide⟩,
    ⟨by decide, by decide, by decide, ⟨by decide, by decide⟩, nofun, nofun⟩, ⟨_, rfl, by decide⟩⟩

end Sys2Proof.Tests
end

section
/-! SUPPORT and the proof of O57: the status register read by its fields. -/

namespace Sys2Proof.Machine

open Sys2Proof

/-- An integer in the word range is the value of the word that holds it (00_scope.md R8, R9). -/
theorem toInt_ofInt_of_inWord {v : Int} (h : inWord v) : (BitVec.ofInt 64 v).toInt = v := by
  obtain ⟨hmin, hmax⟩ := h
  simp only [wordMin, wordMax] at hmin hmax
  exact BitVec.toInt_ofInt_eq_self (by decide) (by omega) (by omega)

/-- The selector of an `UnknownOpcode` fault can be read back from `EXIT_DETAIL` (10_state.md R27). -/
theorem toInt_exitDetail_unknownOpcode {n : Int} (h : inWord n) : (BlockFault.unknownOpcode n).exitDetail.toInt = n :=
  toInt_ofInt_of_inWord h

/-- The digit of an `UnknownMode` fault can be read back from `EXIT_DETAIL` (10_state.md R27). -/
theorem toInt_exitDetail_unknownMode {n : Nat} (h : inWord n) : (BlockFault.unknownMode n).exitDetail.toInt = n := by
  rw [BlockFault.exitDetail, ← BitVec.ofInt_natCast]
  exact toInt_ofInt_of_inWord h

theorem BlockFault.exitCode_ne_seven (f : BlockFault) : f.exitCode ≠ 7 := by
  cases f <;> simp [BlockFault.exitCode]

theorem ExitReason.code_ne_seven : (r : ExitReason) → r.code ≠ 7
  | .halted => by decide
  | .fault f => f.exitCode_ne_seven

/-- `EXIT_CODE` is "0 to 6" where it is valid (10_state.md R27). -/
theorem Status.exitCode_ne_seven : (st : Status) → st.exitCode ≠ some 7
  | .paused => nofun
  | .awaiting _ => nofun
  | .outputting _ => nofun
  | .exit r => fun h => r.code_ne_seven (Option.some.inj h)

theorem Status.awaitAddr_eq_some_iff {st : Status} {a : Nat} : st.awaitAddr = some a ↔ st = .awaiting a := by
  cases st <;> simp [Status.awaitAddr]

/-- A latched destination is an address in every state that meets the invariant (10_state.md R26). -/
theorem Inv.awaitAddr_le {s : State} {a : Nat} (hinv : Inv s) (h : s.status.awaitAddr = some a) : a ≤ addrMax := by
  have hlegal := hinv.status_legal
  rw [Status.awaitAddr_eq_some_iff.1 h] at hlegal
  exact hlegal.1

end Sys2Proof.Machine

namespace Sys2Proof.Certificates.Slice0

open Sys2Proof Sys2Proof.Machine

/-- Settles O57: the table's entries are read off the fields' definitions; selectors -99 to 98 and digits 3 to 9 are in the
word range, so the detail gives them back; the bound on a latched destination is the invariant's. -/
theorem statusRegisterFields : Obligations.StatusRegisterFields := by
  refine ⟨⟨rfl, rfl, rfl, rfl, rfl⟩, fun _ => ⟨rfl, rfl, rfl, rfl, rfl⟩, fun _ => ⟨rfl, rfl, rfl, rfl, rfl⟩,
    fun _ => ⟨rfl, rfl, rfl⟩, ⟨rfl, rfl⟩, fun n => ⟨rfl, fun hlo hhi => ?_⟩, fun n => ⟨rfl, fun hlo hhi => ?_⟩,
    ⟨rfl, rfl, rfl, rfl⟩, ⟨rfl, rfl, rfl, rfl⟩, Status.exitCode_ne_seven, fun _ _ => Inv.awaitAddr_le⟩
  · have hword : inWord n := by simp only [inWord, wordMin, wordMax]; omega
    exact ⟨_, rfl, toInt_exitDetail_unknownOpcode hword⟩
  · have hword : inWord n := by simp only [inWord, wordMin, wordMax]; omega
    exact ⟨_, rfl, toInt_exitDetail_unknownMode hword⟩

end Sys2Proof.Certificates.Slice0
end

section
/-! SUPPORT and the proof of O12: an access completes exactly where the store holds the address. -/

namespace Sys2Proof.Machine

open Sys2Proof

theorem Capacity.holds_unbounded (a : Nat) : Capacity.holds .unbounded a = true := rfl

theorem Capacity.holds_bounded_of_lt {c a : Nat} (h : a < c) : Capacity.holds (.bounded c) a = true :=
  decide_eq_true h

theorem Capacity.holds_bounded_of_le {c a : Nat} (h : c ≤ a) : Capacity.holds (.bounded c) a = false :=
  decide_eq_false (Nat.not_lt.2 h)

/-- `MemRead` and `MemWrite` at an address that the store holds (20_memory.md R51, R52). -/
theorem memRead_memWrite_of_holds {s : State} {a : Nat} (v : Word) (h : Capacity.holds s.config.capacity a = true) :
    memRead s a = .ok (s.mem.read a) ∧ memWrite s a v = .ok (s.store a v) :=
  ⟨memRead_ok_iff.2 ⟨h, rfl⟩, memWrite_ok_iff.2 ⟨h, rfl⟩⟩

/-- `MemRead` and `MemWrite` at an address beyond the store (20_memory.md R51, R52). -/
theorem memRead_memWrite_of_not_holds {s : State} {a : Nat} (v : Word)
    (h : Capacity.holds s.config.capacity a = false) :
    memRead s a = .error .capacityExceeded ∧ memWrite s a v = .error .capacityExceeded :=
  ⟨memRead_error_iff.2 ⟨h, rfl⟩, memWrite_error_iff.2 ⟨h, rfl⟩⟩

end Sys2Proof.Machine

namespace Sys2Proof.Certificates.Slice0

open Sys2Proof Sys2Proof.Machine

/-- Settles O12: each capacity decides whether the store holds the address, and that decides both accesses; what a memory
reads as after a write is the memory's own law. -/
theorem memoryPrimitives : Obligations.MemoryPrimitives := by
  intro s a v
  refine ⟨fun hcap => ?unbounded, fun c hcap hlt => ?below, fun c hcap hle => ?beyond,
    Memory.read_write_same s.mem a v, fun b hne => Memory.read_write_other s.mem v hne⟩
  case unbounded => exact memRead_memWrite_of_holds v (hcap ▸ Capacity.holds_unbounded a)
  case below => exact memRead_memWrite_of_holds v (hcap ▸ Capacity.holds_bounded_of_lt hlt)
  case beyond => exact memRead_memWrite_of_not_holds v (hcap ▸ Capacity.holds_bounded_of_le hle)

end Sys2Proof.Certificates.Slice0
end

section
/-! SUPPORT. The decoder and the encoder, said once: what a selector and a mode field decode to, which word an instruction
encodes as, and that the one gives back the other (30_encoding.md R72 to R77, R98). -/

namespace Sys2Proof

/-! ### Selectors -/

/-- The selectors that select no operation are those the opcode map does not list (30_encoding.md R71, R77). -/
theorem Opcode.ofSelector_eq_none_iff {t : Int} :
    Opcode.ofSelector t = none ↔ t ∉ ([1, 2, 3, 4, 5, 6, 7, 8, 9, 99] : List Int) := by
  rw [Opcode.ofSelector, List.find?_eq_none]
  simp [Opcode.all, Opcode.selector, eq_comm (b := t)]

theorem Opcode.selector_bounds (o : Opcode) : 0 < o.selector ∧ o.selector < 100 := by cases o <;> decide

/-- A selector is a remainder by 100. -/
theorem selectorOf_bounds (w : Word) : -99 ≤ selectorOf w ∧ selectorOf w ≤ 99 := by
  have hlo := Int.lt_tmod_of_pos w.toInt (b := 100) (by decide)
  have hhi := Int.tmod_lt_of_pos w.toInt (b := 100) (by decide)
  rw [selectorOf]
  omega

/-- The selector takes the sign of its word (30_encoding.md R72, R76). -/
theorem selectorOf_nonpos {w : Word} (h : w.toInt < 0) : selectorOf w ≤ 0 := by
  have hneg : 0 ≤ (-w.toInt).tmod 100 := Int.tmod_nonneg 100 (by omega)
  rw [Int.neg_tmod] at hneg
  rw [selectorOf]
  omega

/-- "no legal selector is in that range" (30_encoding.md R76). -/
theorem Opcode.ofSelector_of_nonpos {t : Int} (h : t ≤ 0) : Opcode.ofSelector t = none := by
  cases ho : Opcode.ofSelector t with
  | none => rfl
  | some o =>
    have hpos := o.selector_bounds.1
    rw [Opcode.selector_of_ofSelector ho] at hpos
    omega

/-- An instruction word is rejected for its selector exactly when that selects no operation (30_encoding.md R77). -/
theorem decodeHeader_unknownOpcode_iff {x : ExcessDigits} {w : Word} {t : Int} :
    decodeHeader x w = .error (.unknownOpcode t) ↔ t = selectorOf w ∧ Opcode.ofSelector (selectorOf w) = none := by
  constructor
  · intro h
    rcases decodeHeader_error h with ⟨ht, ho⟩ | ⟨_, hmode, _⟩ | ⟨hexcess, _⟩
    · exact ⟨HeaderReject.unknownOpcode.inj ht, ho⟩
    · cases hmode
    · cases hexcess
  · rintro ⟨rfl, ho⟩
    rw [decodeHeader, ho]

/-! ### Mode digits -/

theorem Mode.digit_le (m : Mode) : m.digit ≤ 2 := by cases m <;> decide

/-- The digits with a mode are 0, 1 and 2 (30_encoding.md R74). -/
theorem Mode.le_of_ofDigit {d : Nat} {m : Mode} (h : Mode.ofDigit d = some m) : d ≤ 2 :=
  Mode.digit_of_ofDigit h ▸ m.digit_le

/-- A digit without a mode ends the reading of the mode digits. -/
theorem decodeModes_succ_of_none {field k : Nat} (n : Nat) (h : Mode.ofDigit (digit field k) = none) :
    decodeModes field k (n + 1) = .error (.unknownMode (digit field k)) := by
  rw [decodeModes, h]

/-- After a digit with a mode, the reading fails where the reading of the later digits does. -/
theorem decodeModes_succ_error_iff_of_some {field k n : Nat} {m : Mode} {e : HeaderReject}
    (h : Mode.ofDigit (digit field k) = some m) :
    decodeModes field k (n + 1) = .error e ↔ decodeModes field (k + 1) n = .error e := by
  rw [decodeModes, h]
  cases decodeModes field (k + 1) n <;> simp

/-- The mode digits from position `k` on are rejected for the first of them that is 3 or above (30_encoding.md R75). -/
theorem decodeModes_unknownMode_iff {field k n d : Nat} :
    decodeModes field k n = .error (.unknownMode d) ↔
      ∃ j < n, d = digit field (k + j) ∧ 3 ≤ d ∧ ∀ i < j, digit field (k + i) ≤ 2 := by
  induction n generalizing k with
  | zero => simp [decodeModes]
  | succ n ih =>
    cases hmode : Mode.ofDigit (digit field k) with
    | none =>
      have hge : 3 ≤ digit field k := Mode.ofDigit_eq_none_iff.1 hmode
      have hlater : ¬∃ j < n, d = digit field (k + (j + 1)) ∧ 3 ≤ d ∧ ∀ i < j + 1, digit field (k + i) ≤ 2 :=
        fun ⟨j, _, _, _, hlow⟩ => absurd (hlow 0 j.succ_pos) (Nat.not_le.2 hge)
      rw [decodeModes_succ_of_none n hmode, Nat.exists_lt_succ_left, or_iff_left hlater]
      simp only [Except.error.injEq, HeaderReject.unknownMode.injEq, Nat.add_zero]
      exact ⟨fun hd => ⟨hd.symm, hd ▸ hge, nofun⟩, fun ⟨hd, _⟩ => hd.symm⟩
    | some m =>
      have hle : digit field k ≤ 2 := Mode.le_of_ofDigit hmode
      have hfirst : ¬(d = digit field (k + 0) ∧ 3 ≤ d ∧ ∀ i < 0, digit field (k + i) ≤ 2) :=
        fun ⟨hd, hge, _⟩ => Nat.not_le.2 hge (hd ▸ hle)
      rw [decodeModes_succ_error_iff_of_some hmode, ih, Nat.exists_lt_succ_left, or_iff_right hfirst]
      simp only [Nat.forall_lt_succ_left, Nat.add_zero, hle, true_and, Nat.add_assoc, Nat.add_comm 1]

/-- With a legal selector, an instruction word is rejected for a mode exactly when its mode digits are. -/
theorem decodeHeader_unknownMode_iff {x : ExcessDigits} {w : Word} {op : Opcode} {d : Nat}
    (h : Opcode.ofSelector (selectorOf w) = some op) :
    decodeHeader x w = .error (.unknownMode d) ↔ decodeModes (modeField w) 0 op.arity = .error (.unknownMode d) := by
  simp only [decodeHeader, h]
  cases decodeModes (modeField w) 0 op.arity with
  | error e => simp
  | ok ms =>
    simp only
    split <;> simp

/-! ### The decoder gives back what the encoder wrote -/

theorem modesValue_lt (ms : List Mode) : modesValue ms < 10 ^ ms.length := by
  induction ms with
  | nil => simp [modesValue]
  | cons m ms ih =>
    have := m.digit_le
    simp only [modesValue, List.length_cons, pow_succ]
    omega

/-- A mode field decodes to the modes whose digits stand in it from position `k` on. -/
theorem decodeModes_of_modesValue {field k : Nat} {ms : List Mode} (h : field / 10 ^ k = modesValue ms) :
    decodeModes field k ms.length = .ok ms := by
  induction ms generalizing k with
  | nil => rfl
  | cons m ms ih =>
    have hm := m.digit_le
    rw [modesValue] at h
    have hdigit : digit field k = m.digit := by
      rw [digit, h]
      omega
    have hrest : field / 10 ^ (k + 1) = modesValue ms := by
      rw [pow_succ, ← Nat.div_div_eq_div_mul, h]
      omega
    simp only [List.length_cons, decodeModes, hdigit, Mode.ofDigit_digit, ih hrest]

/-- An instruction has as many operands as its operation's arity (30_encoding.md R71, R81). -/
theorem Instr.operands_length (i : Instr) : i.operands.length = i.opcode.arity := by cases i <;> rfl

theorem Opcode.arity_le (o : Opcode) : o.arity ≤ 3 := Nat.le_of_add_le_add_left (Laws.Opcode.width_le o)

/-- The value of a canonical instruction word (30_encoding.md R98): no operation has so many operands that it leaves the
word range. -/
theorem toInt_encodeHeader (op : Opcode) {ms : List Mode} (h : ms.length = op.arity) :
    (encodeHeader op ms).toInt = op.selector + 100 * modesValue ms := by
  obtain ⟨hpos, hlt⟩ := op.selector_bounds
  have hms : modesValue ms < 10 ^ 3 :=
    (modesValue_lt ms).trans_le (Nat.pow_le_pow_right (by decide) (h ▸ op.arity_le))
  apply Machine.toInt_ofInt_of_inWord
  simp only [Machine.inWord, wordMin, wordMax]
  omega

theorem selectorOf_encodeHeader (op : Opcode) {ms : List Mode} (h : ms.length = op.arity) :
    selectorOf (encodeHeader op ms) = op.selector := by
  obtain ⟨hpos, hlt⟩ := op.selector_bounds
  rw [selectorOf, toInt_encodeHeader op h, Int.tmod_eq_emod_of_nonneg (by omega)]
  omega

theorem modeField_encodeHeader (op : Opcode) {ms : List Mode} (h : ms.length = op.arity) :
    modeField (encodeHeader op ms) = modesValue ms := by
  obtain ⟨hpos, hlt⟩ := op.selector_bounds
  rw [modeField, toInt_encodeHeader op h, Int.tdiv_eq_ediv_of_nonneg (by omega)]
  omega

/-- A canonical instruction word decodes to its operation and its modes: it has no excess digit, so the treatment of those
does not matter (30_encoding.md R75, R82). -/
theorem decodeHeader_encodeHeader (x : ExcessDigits) (op : Opcode) {ms : List Mode} (h : ms.length = op.arity) :
    decodeHeader x (encodeHeader op ms) = .ok ⟨op, ms⟩ := by
  have hmodes : decodeModes (modesValue ms) 0 op.arity = .ok ms := h ▸ decodeModes_of_modesValue (by simp)
  have hexcess : modesValue ms / 10 ^ op.arity = 0 := Nat.div_eq_of_lt (h ▸ modesValue_lt ms)
  rw [decodeHeader, selectorOf_encodeHeader op h, modeField_encodeHeader op h, Opcode.ofSelector_selector]
  simp only [hmodes, hexcess, ne_eq, not_true_eq_false, false_and, if_false]

/-- An instruction is its operation with the modes and the words of its operands. -/
theorem Header.toInstr_of_instr (i : Instr) :
    Header.toInstr ⟨i.opcode, i.operands.map Operand.mode⟩ (i.operands.map Operand.word) = i := by
  cases i <;> simp [Header.toInstr, Header.operand, Instr.opcode, Instr.operands]

/-- The decoder gives back every instruction from its canonical words and leaves the words after them. -/
theorem decode_encode_append (x : ExcessDigits) (i : Instr) (rest : List Word) :
    decode x (encode i ++ rest) = .ok (i, rest) := by
  have hlen : (i.operands.map Operand.word).length = i.opcode.arity := by simp [i.operands_length]
  have hheader := decodeHeader_encodeHeader x i.opcode (ms := i.operands.map Operand.mode) (by simp [i.operands_length])
  have henough : ¬(i.operands.map Operand.word ++ rest).length < i.opcode.arity := by
    rw [List.length_append, hlen]
    omega
  simp only [encode, List.cons_append, decode, hheader, if_neg henough, List.take_left' hlen, List.drop_left' hlen,
    Header.toInstr_of_instr]

/-! ### The words of the encoder -/

/-- The instruction word of one operand's mode (30_encoding.md R98). -/
theorem encodeHeader_one (op : Opcode) (m : Mode) :
    encodeHeader op [m] = BitVec.ofInt 64 (op.selector + 100 * m.digit) := rfl

/-- The instruction word of two operands' modes (30_encoding.md R98). -/
theorem encodeHeader_two (op : Opcode) (m₁ m₂ : Mode) :
    encodeHeader op [m₁, m₂] = BitVec.ofInt 64 (op.selector + 100 * m₁.digit + 1000 * m₂.digit) := by
  simp only [encodeHeader, modesValue]
  congr 1
  omega

/-- The instruction word of three operands' modes (30_encoding.md R98). -/
theorem encodeHeader_three (op : Opcode) (m₁ m₂ m₃ : Mode) :
    encodeHeader op [m₁, m₂, m₃] =
      BitVec.ofInt 64 (op.selector + 100 * m₁.digit + 1000 * m₂.digit + 10000 * m₃.digit) := by
  simp only [encodeHeader, modesValue]
  congr 1
  omega

end Sys2Proof
end

section
/-! The proofs of O3, O5, O6 and O8. -/

namespace Sys2Proof.Certificates.Slice0

open Sys2Proof Sys2Proof.Machine

/-- Settles O5: the selector is looked up before anything else is, and it is a remainder by 100, so the selectors that the
opcode map does not list are the three ranges. -/
theorem unknownOpcodeExactlyForIllegalSelectors : Obligations.UnknownOpcodeExactlyForIllegalSelectors := by
  refine ⟨fun x w t => ?raised, fun w => ?ranges⟩
  case raised =>
    rw [decodeHeader_unknownOpcode_iff, Opcode.ofSelector_eq_none_iff]
    exact and_congr_right fun ht => ht ▸ Iff.rfl
  case ranges =>
    have hbounds := selectorOf_bounds w
    rw [selectorOf] at hbounds
    simp only [List.mem_cons, List.not_mem_nil, or_false]
    omega

/-- Settles O6: a negative word has a selector in `[-99, 0]`, where no operation's is; as data and as an operand word it is
a word like any other. -/
theorem negativeWordsNeverDecode : Obligations.NegativeWordsNeverDecode := by
  refine ⟨fun x w hneg => ?negative, fun x => ⟨?_, ?_, ?_, ?_⟩, fun m a n _ => Memory.read_write_same m a n,
    fun x i rest _ => decode_encode_append x i rest⟩
  case negative =>
    have hnonpos := selectorOf_nonpos hneg
    exact ⟨selectorOf w, (selectorOf_bounds w).1, hnonpos, rfl,
      decodeHeader_unknownOpcode_iff.2 ⟨rfl, Opcode.ofSelector_of_nonpos hnonpos⟩⟩
  all_goals exact decodeHeader_unknownOpcode_iff.2 (by decide)

/-- Settles O8: with a legal selector only the mode digits can raise it, and they are read in operand order; a decimal digit
is at most 9. -/
theorem unknownModeReportsLowestOperand : Obligations.UnknownModeReportsLowestOperand := by
  refine ⟨⟨rfl, rfl, rfl⟩, fun x w op hop d => ?_⟩
  rw [decodeHeader_unknownMode_iff hop, decodeModes_unknownMode_iff]
  simp only [Nat.zero_add]
  constructor
  · rintro ⟨k, hk, rfl, hge, hlow⟩
    exact ⟨k, hk, rfl, hge, Nat.le_of_lt_succ (digit_lt _ k), hlow⟩
  · rintro ⟨k, hk, hd, hge, _, hlow⟩
    exact ⟨k, hk, hd, hge, hlow⟩

/-- Settles O3: an operation's word depends on its selector and the modes of its operands alone, so there is one equation
for each number of operands. -/
theorem encodedWordsOfEachInstruction : Obligations.EncodedWordsOfEachInstruction := by
  refine ⟨fun n => ⟨rfl, rfl, rfl⟩, fun a b c => ?words, by decide⟩
  case words =>
    have one (op : Opcode) (o : Operand) := congrArg (· :: [o.word]) (encodeHeader_one op o.mode)
    have two (op : Opcode) := congrArg (· :: [a.word, b.word]) (encodeHeader_two op a.mode b.mode)
    have three (op : Opcode) :=
      congrArg (· :: [a.word, b.word, c.word]) (encodeHeader_three op a.mode b.mode c.mode)
    exact ⟨three .add, three .mul, one .inp c, one .out a, two .jt, two .jf, three .lt, three .eq, one .arb a, rfl⟩

end Sys2Proof.Certificates.Slice0
end

section
/-! SUPPORT. Operand resolution, said once per form and role (40_execution_cycle.md R101 to R103), and what an Immediate write
operand does to its instruction (R105). -/

namespace Sys2Proof

theorem Operand.fits_eq_false_iff {r : Role} {o : Operand} :
    o.fits r = false ↔ r = .write ∧ ∃ x, o = .immediate x := by
  cases r <;> cases o <;> simp [Operand.fits, Operand.mode]

/-- An ill-formed instruction is one with an Immediate write operand. -/
theorem Instr.wellFormed_eq_false_iff {i : Instr} :
    i.wellFormed = false ↔ ∃ x, (Role.write, Operand.immediate x) ∈ i.roled := by
  rw [Instr.wellFormed, List.all_eq_false]
  constructor
  · rintro ⟨⟨r, o⟩, hmem, hfits⟩
    obtain ⟨rfl, x, rfl⟩ := Operand.fits_eq_false_iff.1 (Bool.eq_false_iff.2 hfits)
    exact ⟨x, hmem⟩
  · rintro ⟨x, hmem⟩
    exact ⟨_, hmem, Bool.eq_false_iff.1 (Operand.fits_eq_false_iff.2 ⟨rfl, x, rfl⟩)⟩

end Sys2Proof

namespace Sys2Proof.Machine

open Sys2Proof

/-! ### Addresses -/

/-- `wrap(v)` is "the unique word u with u = v modulo 2^64" (40_execution_cycle.md R104). -/
theorem wrap_eq_of_dvd {v : Int} {u : Word} (h : (2 ^ 64 : Int) ∣ u.toInt - v) : wrap v = u := by
  have hmod : u.toInt % 2 ^ 64 = v % 2 ^ 64 := Int.emod_eq_emod_iff_emod_sub_eq_zero.2 (Int.emod_eq_zero_of_dvd h)
  calc wrap v = BitVec.ofInt 64 u.toInt := by
        apply BitVec.eq_of_toNat_eq
        rw [wrap, BitVec.toNat_ofInt, BitVec.toNat_ofInt]
        exact congrArg Int.toNat hmod.symm
    _ = u := BitVec.ofInt_toInt

theorem directAddr_of_neg {x : Word} (h : x.toInt < 0) : directAddr x = .error .negativeAddress := if_pos h

theorem directAddr_of_nonneg {x : Word} (h : 0 ≤ x.toInt) : directAddr x = .ok x.toInt.toNat :=
  directAddr_ok_iff.2 ⟨h, rfl⟩

/-- Under `Fault` the exact sum of base and operand word is checked against both ends of the address range. -/
theorem relAddr_of_fault {s : State} (x : Word) (h : s.config.overflow = .fault) :
    relAddr s x =
      if s.rb.toInt + x.toInt < 0 then .error .negativeAddress
      else if (addrMax : Int) < s.rb.toInt + x.toInt then .error .overflow
      else .ok (s.rb.toInt + x.toInt).toNat := by
  rw [relAddr, h]

/-- Under `Wrap` a Relative address is the wrapped sum, taken as a Direct address is. -/
theorem relAddr_of_wrap {s : State} (x : Word) (h : s.config.overflow = .wrap) :
    relAddr s x = directAddr (wrap (s.rb.toInt + x.toInt)) := by
  rw [relAddr, h]
  rfl

/-! ### Operands -/

theorem resolveRead_direct_of_neg (s : State) {x : Word} (h : x.toInt < 0) :
    resolveRead s (.direct x) = .error .negativeAddress :=
  bind_error_iff.2 (.inl (directAddr_of_neg h))

theorem resolveRead_direct_of_nonneg (s : State) {x : Word} (h : 0 ≤ x.toInt) :
    resolveRead s (.direct x) = memRead s x.toInt.toNat := by
  rw [resolveRead, directAddr_of_nonneg h]
  rfl

theorem resolveRead_relative_of_ok {s : State} {x : Word} {a : Nat} (h : relAddr s x = .ok a) :
    resolveRead s (.relative x) = memRead s a := by
  rw [resolveRead, h]
  rfl

theorem resolveRead_relative_of_error {s : State} {x : Word} {f : BlockFault} (h : relAddr s x = .error f) :
    resolveRead s (.relative x) = .error f :=
  bind_error_iff.2 (.inl h)

theorem resolveWrite_immediate (s : State) (x : Word) : resolveWrite s (.immediate x) = .error .writeToImmediate := rfl

/-- What a write operand resolves to is an address (40_execution_cycle.md R101). -/
theorem resolveWrite_le {s : State} {o : Operand} {a : Nat} (h : resolveWrite s o = .ok a) : a ≤ addrMax := by
  cases o with
  | direct x =>
    obtain ⟨_, rfl⟩ := directAddr_ok_iff.1 h
    exact toNat_toInt_le_addrMax x
  | immediate x => exact nomatch h
  | relative x => exact relAddr_le h

/-! ### Immediate write operands -/

/-- ADD, MUL, LT and EQ with an Immediate destination: it is resolved after the two read operands, so it raises the fault
unless one of them did. -/
theorem storeResult_immediate (g : Word → Word → Except BlockFault Word) (a b : Operand) (x : Word) (s : State) :
    ∃ f, storeResult g a b (.immediate x) s = .error f ∧
      ((∃ v, resolveRead s a = .ok v) → (∃ v, resolveRead s b = .ok v) → f = .writeToImmediate) := by
  cases ha : resolveRead s a with
  | error f => exact ⟨f, bind_error_iff.2 (.inl ha), nofun⟩
  | ok va =>
    cases hb : resolveRead s b with
    | error f => exact ⟨f, bind_error_iff.2 (.inr ⟨va, ha, bind_error_iff.2 (.inl hb)⟩), nofun⟩
    | ok vb =>
      refine ⟨.writeToImmediate, bind_error_iff.2 (.inr ⟨va, ha, ?_⟩), fun _ _ => rfl⟩
      exact bind_error_iff.2 (.inr ⟨vb, hb, bind_error_iff.2 (.inl (resolveWrite_immediate s x))⟩)

/-- `i` enters a fault in `s` and does nothing else; the fault is `WriteToImmediate` where its read operands resolve
(40_execution_cycle.md R105). -/
def FaultsAsImmediateWrite (i : Instr) (s : State) : Prop :=
  ∃ f, exec i s = .next (s.takeFault f) ∧
    ((∀ o, (Role.read, o) ∈ i.roled → ∃ v, resolveRead s o = .ok v) → f = .writeToImmediate)

theorem FaultsAsImmediateWrite.of_storeResult {i : Instr} {s : State} {g : Word → Word → Except BlockFault Word}
    {a b c : Operand} {x : Word} (hroled : i.roled = [(.read, a), (.read, b), (.write, c)])
    (hexec : exec i s = complete s (storeResult g a b c s)) (h : (Role.write, Operand.immediate x) ∈ i.roled) :
    FaultsAsImmediateWrite i s := by
  obtain rfl : c = .immediate x := by simpa [hroled, eq_comm] using h
  obtain ⟨f, hf, hreads⟩ := storeResult_immediate g a b x s
  refine ⟨f, by rw [hexec, hf, complete_error], fun hall => ?_⟩
  exact hreads (hall a (by simp [hroled])) (hall b (by simp [hroled]))

/-- Only ADD, MUL, LT, EQ and IN have a write operand to be Immediate, and each faults when it is. -/
theorem faultsAsImmediateWrite_of_mem {i : Instr} {x : Word} (s : State)
    (h : (Role.write, Operand.immediate x) ∈ i.roled) : FaultsAsImmediateWrite i s := by
  cases i with
  | add a b c => exact .of_storeResult rfl rfl h
  | mul a b c => exact .of_storeResult rfl rfl h
  | lt a b c => exact .of_storeResult rfl rfl h
  | eq a b c => exact .of_storeResult rfl rfl h
  | inp c =>
    obtain rfl : c = .immediate x := by
      simpa [Instr.roled, Instr.opcode, Opcode.roles, Instr.operands, eq_comm] using h
    exact ⟨.writeToImmediate, rfl, fun _ => rfl⟩
  | out a | jt a b | jf a b | arb a | halt =>
    simp [Instr.roled, Instr.opcode, Opcode.roles, Instr.operands] at h

end Sys2Proof.Machine
end

section
/-! The proofs of O38, O16 and O17. -/

namespace Sys2Proof.Certificates.Slice0

open Sys2Proof Sys2Proof.Machine

/-- Settles O38: an ill-formed instruction has an Immediate write operand, and resolving it, or an operand before it, raises a
fault before any effect. -/
theorem immediateWriteNeverCompletes : Obligations.ImmediateWriteNeverCompletes := by
  refine ⟨resolveWrite_immediate, fun i s hill => ?_⟩
  obtain ⟨x, hmem⟩ := Instr.wellFormed_eq_false_iff.1 hill
  exact faultsAsImmediateWrite_of_mem s hmem

/-- Settles O16: under `Fault` the three ranges are the branches of the address check; under `Wrap` the congruent word is the
wrapped sum, and its sign decides. -/
theorem relativeAddresses : Obligations.RelativeAddresses := by
  refine fun s x => ⟨fun hfault => ?exact, fun hwrap e he => ?wrapped⟩
  case exact =>
    rw [relAddr_of_fault x hfault]
    refine ⟨fun hneg => if_pos hneg, fun hover => ?_, fun hlo hhi => ?_⟩
    · have hlo : ¬ s.rb.toInt + x.toInt < 0 := by omega
      rw [if_neg hlo, if_pos hover]
    · rw [if_neg (Int.not_lt.2 hlo), if_neg (Int.not_lt.2 hhi)]
  case wrapped =>
    rw [relAddr_of_wrap x hwrap, wrap_eq_of_dvd he]
    exact ⟨directAddr_of_neg, directAddr_of_nonneg⟩

/-- Settles O17: one law for each form, role and outcome of the address. -/
theorem operandResolution : Obligations.OperandResolution := by
  refine fun s x => ⟨rfl, resolveWrite_immediate s x, fun hneg => ?directNeg, fun hnonneg => ?directNonneg,
    fun a ha => ?relative, fun f hf => ?relativeFault, fun o a => resolveWrite_le⟩
  case directNeg => exact ⟨resolveRead_direct_of_neg s hneg, directAddr_of_neg hneg⟩
  case directNonneg => exact ⟨resolveRead_direct_of_nonneg s hnonneg, directAddr_of_nonneg hnonneg⟩
  case relative => exact ⟨resolveRead_relative_of_ok ha, ha⟩
  case relativeFault => exact ⟨resolveRead_relative_of_error hf, hf⟩

end Sys2Proof.Certificates.Slice0
end

section
/-! SUPPORT. The two outcomes of a conditional jump whose operands resolve, said once for JT and JF (43_control.md R141 to
R143). -/

namespace Sys2Proof.Machine

open Sys2Proof

theorem testsTrue_iff {w : Word} : testsTrue w = true ↔ w.toInt ≠ 0 := decide_eq_true_iff

theorem testsTrue_eq_false_iff {w : Word} : testsTrue w = false ↔ w.toInt = 0 := by
  rw [testsTrue, decide_eq_false_iff_not, not_not]

theorem testsFalse_iff {w : Word} : testsFalse w = true ↔ w.toInt = 0 := decide_eq_true_iff

theorem testsFalse_eq_false_iff {w : Word} : testsFalse w = false ↔ w.toInt ≠ 0 := decide_eq_false_iff_not

theorem jumpTarget_of_neg {w : Word} (h : w.toInt < 0) : jumpTarget w = .error .negativeAddress := directAddr_of_neg h

/-- A jump whose operands resolve either finds its next `pc` and sets it, or raises the fault of finding it. -/
theorem jumpIf_of_reads (taken : Word → Bool) {a b : Operand} {s : State} {va vb : Word}
    (ha : resolveRead s a = .ok va) (hb : resolveRead s b = .ok vb) :
    jumpIf taken a b s = (branchPc s (taken va) vb).map s.setPc := by
  rw [jumpIf, ha, hb]
  rfl

section
variable {taken : Word → Bool} {a b : Operand} {s : State} {va vb : Word}
  (ha : resolveRead s a = .ok va) (hb : resolveRead s b = .ok vb)
include ha hb

/-- A jump taken to a negative target faults in place. -/
theorem complete_jumpIf_of_taken_of_neg (ht : taken va = true) (hneg : vb.toInt < 0) :
    complete s (jumpIf taken a b s) = .next (s.takeFault .negativeAddress) := by
  have htarget : branchPc s true vb = .error .negativeAddress := jumpTarget_of_neg hneg
  rw [jumpIf_of_reads taken ha hb, ht, htarget]
  rfl

/-- A jump not taken goes on at the next instruction; its target is not looked at. -/
theorem complete_jumpIf_of_not_taken (ht : taken va = false) (hpc : s.pc + 3 ≤ addrMax) :
    complete s (jumpIf taken a b s) = .next (s.setPc (s.pc + 3)) := by
  have hnext : branchPc s false vb = .ok (s.pc + 3) := nextPc_ok_iff.2 ⟨hpc, rfl⟩
  rw [jumpIf_of_reads taken ha hb, ht, hnext]
  rfl

end

end Sys2Proof.Machine
end

section
/-! The proof of O27. -/

namespace Sys2Proof.Certificates.Slice0

open Sys2Proof Sys2Proof.Machine

/-- Settles O27: JT and JF differ only in their test, so both follow from the one law for a jump that is taken and the one for
a jump that is not. -/
theorem jumpTargetsAreChecked : Obligations.JumpTargetsAreChecked := by
  refine ⟨fun b => ⟨jumpTarget_of_neg, fun hnonneg => ?target⟩, fun s a b va vb ha hb hneg => ⟨?_, ?_, ?_, ?_⟩⟩
  case target => exact ⟨jumpTarget_ok_iff.2 ⟨hnonneg, rfl⟩, toNat_toInt_le_addrMax b⟩
  · exact fun hva => complete_jumpIf_of_taken_of_neg ha hb (testsTrue_iff.2 hva) hneg
  · exact fun hva => complete_jumpIf_of_taken_of_neg ha hb (testsFalse_iff.2 hva) hneg
  · exact fun hva hpc => complete_jumpIf_of_not_taken ha hb (testsTrue_eq_false_iff.2 hva) hpc
  · exact fun hva hpc => complete_jumpIf_of_not_taken ha hb (testsFalse_eq_false_iff.2 hva) hpc

end Sys2Proof.Certificates.Slice0
end

section
/-! SUPPORT. The decoder read the other way (30_encoding.md R72 to R78, R82, R83): which instruction words it accepts, that an
accepted word without excess digits is the canonical one, and what a word with excess digits holds. -/

namespace Sys2Proof

/-! ### Which words decode -/

/-- After a digit with a mode, the reading succeeds with that mode before those of the later digits. -/
theorem decodeModes_succ_ok_iff_of_some {field k n : Nat} {m : Mode} {ms : List Mode}
    (h : Mode.ofDigit (digit field k) = some m) :
    decodeModes field k (n + 1) = .ok ms ↔ ∃ ms', ms = m :: ms' ∧ decodeModes field (k + 1) n = .ok ms' := by
  rw [decodeModes, h]
  cases decodeModes field (k + 1) n with
  | error e => simp
  | ok ms' => simp [eq_comm (a := ms)]

/-- The mode digits from position `k` on decode exactly when each of them has a mode (30_encoding.md R75). -/
theorem decodeModes_accepts_iff {field k n : Nat} :
    (∃ ms, decodeModes field k n = .ok ms) ↔ ∀ j < n, digit field (k + j) ≤ 2 := by
  induction n generalizing k with
  | zero => simp [decodeModes]
  | succ n ih =>
    rw [Nat.forall_lt_succ_left, Nat.add_zero]
    cases hmode : Mode.ofDigit (digit field k) with
    | none =>
      have hge : 3 ≤ digit field k := Mode.ofDigit_eq_none_iff.1 hmode
      rw [decodeModes_succ_of_none n hmode]
      exact ⟨nofun, fun ⟨hle, _⟩ => absurd hle (Nat.not_le.2 hge)⟩
    | some m =>
      have hle : digit field k ≤ 2 := Mode.le_of_ofDigit hmode
      have hlater : (∃ ms, decodeModes field (k + 1) n = .ok ms) ↔ ∀ j < n, digit field (k + (j + 1)) ≤ 2 := by
        simpa only [Nat.add_assoc, Nat.add_comm 1] using ih (k := k + 1)
      simp only [decodeModes_succ_ok_iff_of_some hmode]
      exact ⟨fun ⟨_, ms, _, hms⟩ => ⟨hle, hlater.1 ⟨ms, hms⟩⟩,
        fun ⟨_, hlow⟩ => (hlater.2 hlow).elim fun ms hms => ⟨m :: ms, ms, rfl, hms⟩⟩

/-- An instruction word decodes to its operation and modes exactly when the three parts of `Decode` accept it
(30_encoding.md R75). -/
theorem decodeHeader_ok_iff {x : ExcessDigits} {w : Word} {h : Header} :
    decodeHeader x w = .ok h ↔ Opcode.ofSelector (selectorOf w) = some h.op ∧
      decodeModes (modeField w) 0 h.op.arity = .ok h.modes ∧ (modeField w / 10 ^ h.op.arity = 0 ∨ x = .ignore) := by
  obtain ⟨op, ms⟩ := h
  rw [decodeHeader]
  cases hop : Opcode.ofSelector (selectorOf w) with
  | none => simp
  | some op' =>
    simp only [Option.some.injEq]
    cases hms : decodeModes (modeField w) 0 op'.arity with
    | error e =>
      simp only [reduceCtorEq, false_iff]
      rintro ⟨rfl, hok, _⟩
      simp [hms] at hok
    | ok ms' =>
      have hx : x ≠ .refuse ↔ x = .ignore := by cases x <;> simp
      simp only
      split
      next hexcess =>
        simp only [reduceCtorEq, false_iff]
        rintro ⟨rfl, _, hnone⟩
        exact hnone.elim hexcess.1 (fun hi => hx.2 hi hexcess.2)
      next hfine =>
        have hfine : modeField w / 10 ^ op'.arity = 0 ∨ x = .ignore := by
          rw [← hx]
          tauto
        simp only [Except.ok.injEq, Header.mk.injEq]
        constructor
        · rintro ⟨rfl, rfl⟩
          exact ⟨rfl, hms, hfine⟩
        · rintro ⟨rfl, hok, _⟩
          exact ⟨rfl, Except.ok.inj (hms.symm.trans hok)⟩

/-! ### The digits of a mode field -/

/-- `n` digits of a mode field decode to the modes whose digits they are (30_encoding.md R73, R74). -/
theorem decodeModes_ok_iff {field k n : Nat} {ms : List Mode} :
    decodeModes field k n = .ok ms ↔ ms.length = n ∧ field / 10 ^ k % 10 ^ n = modesValue ms := by
  induction n generalizing k ms with
  | zero =>
    cases ms with
    | nil => simp [decodeModes, modesValue, Nat.mod_one]
    | cons m ms => simp [decodeModes]
  | succ n ih =>
    have hsplit : field / 10 ^ k % 10 ^ (n + 1) = digit field k + 10 * (field / 10 ^ (k + 1) % 10 ^ n) := by
      rw [pow_succ', Nat.mod_mul, Nat.div_div_eq_div_mul, ← pow_succ, digit]
    rw [hsplit]
    cases hmode : Mode.ofDigit (digit field k) with
    | none =>
      have hge : 3 ≤ digit field k := Mode.ofDigit_eq_none_iff.1 hmode
      have hlt := digit_lt field k
      rw [decodeModes_succ_of_none n hmode]
      refine ⟨nofun, ?_⟩
      rintro ⟨hlen, hval⟩
      cases ms with
      | nil => cases hlen
      | cons m ms =>
        have := m.digit_le
        simp only [modesValue] at hval
        omega
    | some m =>
      have hm : m.digit = digit field k := Mode.digit_of_ofDigit hmode
      rw [decodeModes_succ_ok_iff_of_some hmode]
      constructor
      · rintro ⟨ms', rfl, hrest⟩
        obtain ⟨hlen, hval⟩ := ih.1 hrest
        exact ⟨by simp [hlen], by rw [modesValue, hm, hval]⟩
      · rintro ⟨hlen, hval⟩
        cases ms with
        | nil => cases hlen
        | cons m' ms' =>
          have hle := m.digit_le
          have hle' := m'.digit_le
          simp only [modesValue] at hval
          have hdigit : m'.digit = m.digit := by omega
          obtain rfl : m = m' := by simpa [hdigit] using Mode.ofDigit_digit m'
          exact ⟨ms', rfl, ih.2 ⟨by simpa using hlen, by omega⟩⟩

/-! ### Only the canonical word has no excess digits -/

/-- A word with a legal selector is put together from its selector and its mode field (30_encoding.md R72, R73, R76). -/
theorem toInt_eq_selectorOf_add_modeField {w : Word} {op : Opcode} (h : Opcode.ofSelector (selectorOf w) = some op) :
    w.toInt = op.selector + 100 * modeField w := by
  have hnonneg : 0 ≤ w.toInt := by
    by_contra hneg
    rw [Opcode.ofSelector_of_nonpos (selectorOf_nonpos (Int.not_le.1 hneg))] at h
    cases h
  rw [Opcode.selector_of_ofSelector h, selectorOf, modeField, Int.tmod_eq_emod_of_nonneg hnonneg,
    Int.tdiv_eq_ediv_of_nonneg hnonneg]
  omega

/-- Where excess digits are refused, only the canonical word of an operation and its modes decodes to them. -/
theorem encodeHeader_of_decodeHeader {w : Word} {h : Header} (hd : decodeHeader .refuse w = .ok h) :
    w = encodeHeader h.op h.modes := by
  obtain ⟨hop, hmodes, hexcess⟩ := decodeHeader_ok_iff.1 hd
  obtain ⟨-, hval⟩ := decodeModes_ok_iff.1 hmodes
  have hfield : modeField w = modesValue h.modes := by
    have hlt : modeField w < 10 ^ h.op.arity := by simpa using hexcess
    rwa [pow_zero, Nat.div_one, Nat.mod_eq_of_lt hlt] at hval
  rw [encodeHeader, ← hfield, ← toInt_eq_selectorOf_add_modeField hop, BitVec.ofInt_toInt]

@[simp] theorem Operand.ofMode_mode (m : Mode) (n : Word) : (Operand.ofMode m n).mode = m := by cases m <;> rfl

@[simp] theorem Operand.ofMode_word (m : Mode) (n : Word) : (Operand.ofMode m n).word = n := by cases m <;> rfl

@[simp] theorem Header.toInstr_opcode (h : Header) (ws : List Word) : (h.toInstr ws).opcode = h.op := by
  obtain ⟨op, ms⟩ := h
  cases op <;> rfl

theorem Header.toInstr_operands (h : Header) (ws : List Word) :
    (h.toInstr ws).operands = (List.range h.op.arity).map (h.operand ws) := by
  obtain ⟨op, ms⟩ := h
  cases op <;> rfl

theorem map_getD_range {α : Type} (l : List α) (d : α) : (List.range l.length).map (fun k => l.getD k d) = l :=
  List.ext_getElem (by simp) fun k hk _ => by
    simp only [List.length_map, List.length_range] at hk
    simp [hk]

/-- The modes of a decoded instruction are those of its header. -/
theorem Header.toInstr_modes {h : Header} (ws : List Word) (hlen : h.modes.length = h.op.arity) :
    (h.toInstr ws).operands.map Operand.mode = h.modes := by
  rw [Header.toInstr_operands, List.map_map, ← hlen]
  exact (List.map_congr_left fun k _ => Operand.ofMode_mode _ _).trans (map_getD_range h.modes .direct)

/-- The operand words of a decoded instruction are those after its instruction word. -/
theorem Header.toInstr_words {h : Header} {ws : List Word} (hlen : ws.length = h.op.arity) :
    (h.toInstr ws).operands.map Operand.word = ws := by
  rw [Header.toInstr_operands, List.map_map, ← hlen]
  exact (List.map_congr_left fun k _ => Operand.ofMode_word _ _).trans (map_getD_range ws 0)

/-- A list of words decodes to what its first word's header makes of the operand words after it. -/
theorem decode_ok_iff {x : ExcessDigits} {ws : List Word} {i : Instr} {rest : List Word} :
    decode x ws = .ok (i, rest) ↔ ∃ w h args, decodeHeader x w = .ok h ∧ args.length = h.op.arity ∧
      ws = w :: (args ++ rest) ∧ i = h.toInstr args := by
  cases ws with
  | nil => simp [decode]
  | cons w tail =>
    rw [decode]
    cases hd : decodeHeader x w with
    | error r =>
      simp only [reduceCtorEq, false_iff]
      rintro ⟨_, h, _, hok, _, heq, _⟩
      obtain ⟨rfl, _⟩ := List.cons.inj heq
      rw [hd] at hok
      cases hok
    | ok h =>
      simp only
      constructor
      · intro hdec
        split at hdec
        · cases hdec
        next henough =>
          obtain ⟨rfl, rfl⟩ := Prod.mk.inj (Except.ok.inj hdec)
          exact ⟨w, h, tail.take h.op.arity, hd, by simp; omega, by simp, rfl⟩
      · rintro ⟨_, h', args, hok, hlen, heq, rfl⟩
        obtain ⟨rfl, rfl⟩ := List.cons.inj heq
        obtain rfl := Except.ok.inj (hd.symm.trans hok)
        have henough : ¬(args ++ rest).length < h.op.arity := by
          rw [List.length_append]
          omega
        rw [if_neg henough, List.take_left' hlen, List.drop_left' hlen]

/-! ### Words with excess digits -/

/-- The selector and the mode field can be read back from a word they make (30_encoding.md R72, R73). -/
theorem fields_of_word (op : Opcode) {field : Nat} (h : op.selector + 100 * field ≤ wordMax) :
    selectorOf (BitVec.ofInt 64 (op.selector + 100 * field)) = op.selector ∧
      modeField (BitVec.ofInt 64 (op.selector + 100 * field)) = field := by
  obtain ⟨hpos, hlt⟩ := op.selector_bounds
  have hval := Machine.toInt_ofInt_of_inWord (v := op.selector + 100 * field) ⟨by simp only [wordMin]; omega, h⟩
  rw [selectorOf, modeField, hval, Int.tmod_eq_emod_of_nonneg (by omega), Int.tdiv_eq_ediv_of_nonneg (by omega)]
  omega

/-- The number of an operation with the modes `ms`, with the excess digits `e` above their digits (30_encoding.md R78). -/
def excessValue (op : Opcode) (ms : List Mode) (e : Nat) : Int :=
  op.selector + 100 * modesValue ms + 10 ^ (op.arity + 2) * (e : Int)

/-- The excess digits stand in the mode field above the digits of the modes. -/
theorem excessValue_eq (op : Opcode) (ms : List Mode) (e : Nat) :
    excessValue op ms e = op.selector + 100 * (modesValue ms + 10 ^ op.arity * e : Nat) := by
  rw [excessValue, pow_add]
  push_cast
  ring

section
variable {op : Opcode} {ms : List Mode} {e : Nat} (hlen : ms.length = op.arity) (hfits : excessValue op ms e ≤ wordMax)
include hlen hfits

/-- The three parts of a word with excess digits. -/
theorem fields_of_excessValue :
    Opcode.ofSelector (selectorOf (BitVec.ofInt 64 (excessValue op ms e))) = some op ∧
      decodeModes (modeField (BitVec.ofInt 64 (excessValue op ms e))) 0 op.arity = .ok ms ∧
      modeField (BitVec.ofInt 64 (excessValue op ms e)) / 10 ^ op.arity = e := by
  have hlow : modesValue ms < 10 ^ op.arity := hlen ▸ modesValue_lt ms
  rw [excessValue_eq] at hfits ⊢
  obtain ⟨hsel, hfield⟩ := fields_of_word op hfits
  rw [hsel, hfield, Opcode.ofSelector_selector, decodeModes_ok_iff]
  refine ⟨rfl, ⟨hlen, ?_⟩, ?_⟩
  · rw [pow_zero, Nat.div_one, Nat.add_mul_mod_self_left, Nat.mod_eq_of_lt hlow]
  · rw [Nat.add_mul_div_left _ _ (by positivity), Nat.div_eq_of_lt hlow, Nat.zero_add]

/-- Under `Ignore` excess digits change nothing of the header (30_encoding.md R78). -/
theorem decodeHeader_ignore_excessValue :
    decodeHeader .ignore (BitVec.ofInt 64 (excessValue op ms e)) = .ok ⟨op, ms⟩ := by
  obtain ⟨hop, hmodes, -⟩ := fields_of_excessValue hlen hfits
  exact decodeHeader_ok_iff.2 ⟨hop, hmodes, .inr rfl⟩

/-- Under `Refuse` a nonzero excess digit rejects the word (30_encoding.md R78). -/
theorem decodeHeader_refuse_excessValue (he : 0 < e) :
    decodeHeader .refuse (BitVec.ofInt 64 (excessValue op ms e)) = .error .excessDigits := by
  obtain ⟨hop, hmodes, hexcess⟩ := fields_of_excessValue hlen hfits
  simp only [decodeHeader, hop, hmodes, hexcess, he.ne', ne_eq, not_false_eq_true, and_self, if_true]

end

end Sys2Proof
end

section
/-! The proofs of O1, O2, O4, O7, O9, O10 and O11. -/

namespace Sys2Proof.Certificates.Slice0

open Sys2Proof Sys2Proof.Machine

/-- Settles O1: the decoder is the encoder's left inverse, whatever words follow. -/
theorem decodeOfEncode : Obligations.DecodeOfEncode := decode_encode_append

/-- Settles O2: an accepted word without excess digits is the canonical one of its operation and modes, and the operand words
stand in the instruction as they stood in the list. -/
theorem encodeOfCanonicalDecode : Obligations.EncodeOfCanonicalDecode := by
  intro ws i rest hdec
  obtain ⟨w, h, args, hd, hlen, rfl, rfl⟩ := decode_ok_iff.1 hdec
  obtain ⟨_, hmodes, _⟩ := decodeHeader_ok_iff.1 hd
  rw [encode, Header.toInstr_opcode, Header.toInstr_modes args (decodeModes_length hmodes), Header.toInstr_words hlen,
    encodeHeader_of_decodeHeader hd, List.cons_append]

/-- Settles O4: the words are written-out numerals, so the decoder runs on them. -/
theorem decodedSampleWords : Obligations.DecodedSampleWords := by
  refine ⟨?_, ?_, ?_, ?_, ?_, ?_, ?_, ?_, ?_, ?_⟩ <;> decide

/-- Settles O7: the mode field of a non-negative word is the word without its two lowest digits. -/
theorem modeDigitsAreWordDigits : Obligations.ModeDigitsAreWordDigits := by
  intro w k hnonneg
  have hfield : modeField w = w.toInt.toNat / 100 := by
    rw [modeField, Int.tdiv_eq_ediv_of_nonneg hnonneg]
    omega
  rw [digit, digit, hfield, Nat.div_div_eq_div_mul, pow_add, Nat.mul_comm]
  norm_num

/-- Settles O9: the header of such a word is the canonical word's, and the operand words follow it. -/
theorem excessDigitsIgnored : Obligations.ExcessDigitsIgnored := by
  intro i e rest hfits
  have hd := decodeHeader_ignore_excessValue (by simp [i.operands_length]) hfits
  exact decode_ok_iff.2 ⟨_, _, _, hd, by simp [i.operands_length], rfl, (Header.toInstr_of_instr i).symm⟩

/-- Settles O10: the instruction word is rejected, so no word after it is looked at. -/
theorem excessDigitsRefused : Obligations.ExcessDigitsRefused := by
  intro i e ws he hfits
  have hd := decodeHeader_refuse_excessValue (by simp [i.operands_length]) hfits he
  rw [excessValue] at hd
  rw [decode, hd]

/-- Settles O11: the three parts of `Decode` accept independently, and the mode digits decode exactly when each is at most 2. -/
theorem decoderAcceptsExactly : Obligations.DecoderAcceptsExactly := by
  intro x w
  have hmodes (op : Opcode) := decodeModes_accepts_iff (field := modeField w) (k := 0) (n := op.arity)
  simp only [Nat.zero_add] at hmodes
  constructor
  · rintro ⟨h, hd⟩
    obtain ⟨hop, hms, hexcess⟩ := decodeHeader_ok_iff.1 hd
    exact ⟨h.op, hop, (hmodes h.op).1 ⟨h.modes, hms⟩, hexcess⟩
  · rintro ⟨op, hop, hdigits, hexcess⟩
    obtain ⟨ms, hms⟩ := (hmodes op).2 hdigits
    exact ⟨⟨op, ms⟩, decodeHeader_ok_iff.2 ⟨hop, hms, hexcess⟩⟩

end Sys2Proof.Certificates.Slice0
end

section
/-! SUPPORT. The canonical memory as the function it stands for (20_memory.md R50), a program image read word by word
(10_state.md R38), and the values of the range checks (40_execution_cycle.md R104). -/

namespace Sys2Proof.Machine

open Sys2Proof

/-! ### Memory -/

/-- A canonical memory lists exactly the addresses whose word is not what an unlisted address reads as, each with its word. -/
theorem Memory.mem_iff_read {m : Memory} (h : m.wf) {c : Nat × Word} :
    c ∈ m ↔ c.2 ≠ Memory.unlisted ∧ m.read c.1 = c.2 := by
  induction m with
  | nil => simpa using Ne.symm
  | cons d m ih =>
    obtain ⟨hsorted, hlisted⟩ := h
    obtain ⟨hfirst, hrest⟩ := List.pairwise_cons.1 hsorted
    have htail := ih ⟨hrest, fun e he => hlisted e (List.mem_cons_of_mem d he)⟩
    rw [List.mem_cons, Memory.read_cons]
    by_cases hc : c.1 = d.1
    · have hnot : c ∉ m := fun hm => (hfirst c hm).ne' hc
      rw [if_pos hc, or_iff_left hnot]
      constructor
      · rintro rfl
        exact ⟨hlisted c (by simp), rfl⟩
      · exact fun ⟨_, hword⟩ => Prod.ext hc hword.symm
    · have hne : c ≠ d := fun e => hc (congrArg Prod.fst e)
      rw [if_neg hc, or_iff_right hne]
      exact htail

/-- A canonical memory lists no entry twice. -/
theorem Memory.nodup_of_wf {m : Memory} (h : m.wf) : m.Nodup :=
  h.1.imp fun hlt heq => hlt.ne (congrArg Prod.fst heq)

/-- Word `i` of a program stands at address `a + i` of its image placed at `a` (10_state.md R38). -/
theorem Memory.read_image (ws : List Word) (a : Nat) {i : Nat} (h : i < ws.length) :
    (Memory.image a ws).read (a + i) = ws[i] := by
  induction ws generalizing a i with
  | nil => simp at h
  | cons w ws ih =>
    rw [Memory.image]
    cases i with
    | zero =>
      split
      next hw => exact (Memory.read_image_below ws (Nat.lt_add_one a)).trans hw.symm
      next => simp [Memory.read_cons]
    | succ i =>
      have hi : i < ws.length := Nat.lt_of_succ_lt_succ h
      have hrest : (Memory.image (a + 1) ws).read (a + (i + 1)) = ws[i] := by
        rw [Nat.add_comm i, ← Nat.add_assoc]
        exact ih (a + 1) hi
      rw [List.getElem_cons_succ]
      split
      next => exact hrest
      next => rw [Memory.read_cons, if_neg (by simp), hrest]

/-- From its end on an image reads as unlisted (10_state.md R38). -/
theorem Memory.read_image_beyond (ws : List Word) {a b : Nat} (h : a + ws.length ≤ b) :
    (Memory.image a ws).read b = Memory.unlisted :=
  Memory.read_of_not_listed fun _ hc => by
    have := (Memory.mem_image hc).2
    omega

/-! ### Range checks -/

theorem checkWord_of_inWord {p : OverflowPolicy} {v : Int} (h : inWord v) : checkWord p v = .ok (BitVec.ofInt 64 v) :=
  checkWord_ok_iff.2 ⟨.inl h, rfl⟩

theorem checkWord_wrap (v : Int) : checkWord .wrap v = .ok (wrap v) := checkWord_ok_iff.2 ⟨.inr rfl, rfl⟩

theorem checkWord_fault_of_not_inWord {v : Int} (h : ¬inWord v) : checkWord .fault v = .error .overflow :=
  checkWord_error_iff.2 ⟨h, rfl, rfl⟩

/-- `wrap(v)` is congruent to `v` modulo `2^64` (40_execution_cycle.md R104). -/
theorem dvd_toInt_wrap_sub (v : Int) : (2 ^ 64 : Int) ∣ (wrap v).toInt - v := by
  rw [wrap, BitVec.toInt_ofInt]
  exact Int.dvd_of_emod_eq_zero (Int.emod_eq_emod_iff_emod_sub_eq_zero.1 Int.bmod_emod)

/-- The word of a computed value under the policy `p`: its own word, or under `Wrap` the one congruent to it modulo `2^64`
(40_execution_cycle.md R104). -/
def IsResult (p : OverflowPolicy) (v : Int) (r : Word) : Prop :=
  r.toInt = v ∨ (p = .wrap ∧ (2 ^ 64 : Int) ∣ r.toInt - v)

theorem inWord_toInt (r : Word) : inWord r.toInt := by
  have hlo := BitVec.le_toInt r
  have hhi := BitVec.toInt_lt (x := r)
  simp only [inWord, wordMin, wordMax]
  omega

/-- `CheckWord` answers the word of its value. -/
theorem checkWord_of_isResult {p : OverflowPolicy} {v : Int} {r : Word} (h : IsResult p v r) : checkWord p v = .ok r := by
  rcases h with rfl | ⟨rfl, hdvd⟩
  · rw [checkWord_of_inWord (inWord_toInt r), BitVec.ofInt_toInt]
  · rw [checkWord_wrap, wrap_eq_of_dvd hdvd]

theorem not_inWord_iff {v : Int} : ¬inWord v ↔ v < wordMin ∨ wordMax < v := by
  simp only [inWord]
  omega

theorem checkAddr_of_lt {a : Nat} (h : addrMax < a) : checkAddr a = .error .overflow := checkAddr_error_iff.2 ⟨h, rfl⟩

theorem checkAddr_of_le {a : Nat} (h : a ≤ addrMax) : checkAddr a = .ok a := checkAddr_ok_iff.2 ⟨h, rfl⟩

theorem nextPc_of_lt {s : State} {n : Nat} (h : addrMax < s.pc + n) : nextPc s n = .error .overflow := checkAddr_of_lt h

theorem nextPc_of_le {s : State} {n : Nat} (h : s.pc + n ≤ addrMax) : nextPc s n = .ok (s.pc + n) := checkAddr_of_le h

end Sys2Proof.Machine
end

section
/-! The proofs of O13, O14 and O15. -/

namespace Sys2Proof.Certificates.Slice0

open Sys2Proof Sys2Proof.Machine

/-- Settles O13: the words decide which entries a canonical memory lists, and its order and its lack of repetitions decide
the list. -/
theorem canonicalMemoriesAgree : Obligations.CanonicalMemoriesAgree := by
  intro m n hm hn hread
  have hperm : m.Perm n := (List.perm_ext_iff_of_nodup (Memory.nodup_of_wf hm) (Memory.nodup_of_wf hn)).2 fun c => by
    rw [Memory.mem_iff_read hm, Memory.mem_iff_read hn, hread]
  exact hperm.eq_of_pairwise (fun c d _ _ hcd hdc => absurd hcd hdc.asymm) hm.1 hn.1

/-- Settles O14: a program that fits is loaded, and the image is what a read of the new memory gives. -/
theorem loadGivesProgramImage : Obligations.LoadGivesProgramImage := by
  intro s p cs hissues hfits
  have hload : issue (.load p) { s with commands := cs } = { s with commands := cs }.load p := if_pos hfits
  have hstep := (step_of_hostIssues hissues).trans (congrArg _ hload)
  obtain ⟨_, hnone, _⟩ := hissues
  refine ⟨_, hstep, rfl, rfl, rfl, rfl, fun i hi => ?word, fun a ha => ?zero, rfl, rfl, rfl, rfl, hnone⟩
  case word => simpa using Memory.read_image p 0 hi
  case zero => exact Memory.read_image_beyond p (by simpa using ha)

/-- Settles O15: the ranges are the branches of the checks, and congruence modulo `2^64` has one solution among the words. -/
theorem rangeChecks : Obligations.RangeChecks := by
  refine ⟨fun p v hmin hmax => ?inside, fun v hout => ?fault, fun v _ => ?wrapped,
    fun a => ⟨checkAddr_of_lt, checkAddr_of_le⟩⟩
  case inside => exact ⟨_, toInt_ofInt_of_inWord ⟨hmin, hmax⟩, checkWord_of_inWord ⟨hmin, hmax⟩⟩
  case fault => exact checkWord_fault_of_not_inWord (not_inWord_iff.2 hout)
  case wrapped => exact ⟨wrap v, checkWord_wrap v, dvd_toInt_wrap_sub v, fun u hu => (wrap_eq_of_dvd hu).symm⟩

end Sys2Proof.Certificates.Slice0
end

section
/-! SUPPORT. The rule of each shape of instruction, one equation per outcome, for operands that resolve
(41_arithmetic_compare.md, 42_io.md, 43_control.md, 44_relative_base.md), and the fault of the first operand that does not
(40_execution_cycle.md R106 item 5). -/

namespace Sys2Proof.Machine

open Sys2Proof

/-! ### ADD, MUL, LT and EQ -/

/-- The end of ADD, MUL, LT and EQ, once the result word is computed. -/
def storeAndAdvance (s : State) (dst : Nat) (r : Word) : Except BlockFault State := do
  let np ← nextPc s 4
  let t ← memWrite s dst r
  .ok (t.setPc np)

theorem storeAndAdvance_of_held {s : State} {dst : Nat} (r : Word) (hpc : s.pc + 4 ≤ addrMax)
    (hheld : Capacity.holds s.config.capacity dst = true) :
    storeAndAdvance s dst r = .ok ((s.store dst r).setPc (s.pc + 4)) := by
  rw [storeAndAdvance, nextPc_of_le hpc, (memRead_memWrite_of_holds r hheld).2]
  rfl

theorem storeAndAdvance_of_not_held {s : State} {dst : Nat} (r : Word) (hpc : s.pc + 4 ≤ addrMax)
    (hbeyond : Capacity.holds s.config.capacity dst = false) : storeAndAdvance s dst r = .error .capacityExceeded := by
  rw [storeAndAdvance, nextPc_of_le hpc, (memRead_memWrite_of_not_holds r hbeyond).2]
  rfl

theorem storeAndAdvance_of_pc_overflow {s : State} (dst : Nat) (r : Word) (hpc : addrMax < s.pc + 4) :
    storeAndAdvance s dst r = .error .overflow := by
  rw [storeAndAdvance, nextPc_of_lt hpc]
  rfl

section
variable {g : Word → Word → Except BlockFault Word} {a b c : Operand} {s : State} {va vb r : Word} {dst : Nat}
  {f : BlockFault} (ha : resolveRead s a = .ok va) (hb : resolveRead s b = .ok vb) (hc : resolveWrite s c = .ok dst)
include ha hb hc

theorem storeResult_of_resolved : storeResult g a b c s = g va vb >>= storeAndAdvance s dst := by
  rw [storeResult, ha, hb, hc]
  rfl

theorem storeResult_of_held (hg : g va vb = .ok r) (hpc : s.pc + 4 ≤ addrMax)
    (hheld : Capacity.holds s.config.capacity dst = true) :
    storeResult g a b c s = .ok ((s.store dst r).setPc (s.pc + 4)) := by
  rw [storeResult_of_resolved ha hb hc, hg]
  exact storeAndAdvance_of_held r hpc hheld

theorem storeResult_of_not_held (hg : g va vb = .ok r) (hpc : s.pc + 4 ≤ addrMax)
    (hbeyond : Capacity.holds s.config.capacity dst = false) : storeResult g a b c s = .error .capacityExceeded := by
  rw [storeResult_of_resolved ha hb hc, hg]
  exact storeAndAdvance_of_not_held r hpc hbeyond

theorem storeResult_of_result_error (hg : g va vb = .error f) : storeResult g a b c s = .error f := by
  rw [storeResult_of_resolved ha hb hc, hg]
  rfl

/-- A next `pc` above `ADDR_MAX` gives `Overflow` whatever the result, since the result can fault only with `Overflow` too. -/
theorem storeResult_of_pc_overflow (hg : ∀ f, g va vb = .error f → f = .overflow) (hpc : addrMax < s.pc + 4) :
    storeResult g a b c s = .error .overflow := by
  rw [storeResult_of_resolved ha hb hc]
  cases hr : g va vb with
  | error f => rw [hg f hr]; rfl
  | ok r => exact storeAndAdvance_of_pc_overflow dst r hpc

end

theorem checkWord_error {p : OverflowPolicy} {v : Int} (f : BlockFault) (h : checkWord p v = .error f) : f = .overflow :=
  (checkWord_error_iff.1 h).2.2

/-- The result word of LT and EQ (10_state.md R25). -/
theorem truthWord_decide (p : Prop) [Decidable p] : truthWord (decide p) = if p then 1 else 0 := by
  by_cases h : p <;> simp [truthWord, h]

/-! ### JT and JF -/

section
variable {taken : Word → Bool} {a b : Operand} {s : State} {va vb : Word}
  (ha : resolveRead s a = .ok va) (hb : resolveRead s b = .ok vb)
include ha hb

/-- A jump taken goes on at its target (43_control.md R141). -/
theorem complete_jumpIf_of_taken (ht : taken va = true) (hnonneg : 0 ≤ vb.toInt) :
    complete s (jumpIf taken a b s) = .next (s.setPc vb.toInt.toNat) := by
  have htarget : branchPc s true vb = .ok vb.toInt.toNat := jumpTarget_ok_iff.2 ⟨hnonneg, rfl⟩
  rw [jumpIf_of_reads taken ha hb, ht, htarget]
  rfl

/-- A jump not taken checks the next `pc` (43_control.md R141). -/
theorem complete_jumpIf_of_not_taken_of_pc_overflow (ht : taken va = false) (hpc : addrMax < s.pc + 3) :
    complete s (jumpIf taken a b s) = .next (s.takeFault .overflow) := by
  have hnext : branchPc s false vb = .error .overflow := nextPc_of_lt hpc
  rw [jumpIf_of_reads taken ha hb, ht, hnext]
  rfl

end

/-! ### IN and OUT -/

theorem suspendAs_of_le {s : State} (st : Status) (hpc : s.pc + 2 ≤ addrMax) :
    suspendAs s st = .ok ((s.setPc (s.pc + 2)).setStatus st) := by
  rw [suspendAs, nextPc_of_le hpc]
  rfl

theorem suspendAs_of_pc_overflow {s : State} (st : Status) (hpc : addrMax < s.pc + 2) :
    suspendAs s st = .error .overflow := by
  rw [suspendAs, nextPc_of_lt hpc]
  rfl

/-- IN with a destination that the store holds suspends (42_io.md R130). -/
theorem exec_inp_of_held {s : State} {c : Operand} {dst : Nat} (hc : resolveWrite s c = .ok dst)
    (hheld : Capacity.holds s.config.capacity dst = true) :
    exec (.inp c) s = complete s (suspendAs s (.awaiting dst)) := by
  rw [exec, execIn, hc]
  exact congrArg (fun r => complete s (r >>= fun _ => suspendAs s (.awaiting dst))) (if_pos hheld)

/-- IN with a destination beyond the store faults before it looks at the next `pc` (42_io.md R130). -/
theorem exec_inp_of_not_held {s : State} {c : Operand} {dst : Nat} (hc : resolveWrite s c = .ok dst)
    (hbeyond : Capacity.holds s.config.capacity dst = false) :
    exec (.inp c) s = .next (s.takeFault .capacityExceeded) := by
  rw [exec, execIn, hc]
  exact congrArg (fun r => complete s (r >>= fun _ => suspendAs s (.awaiting dst)))
    (if_neg (Bool.eq_false_iff.1 hbeyond))

/-- OUT with an operand that resolves suspends (42_io.md R131). -/
theorem exec_out_of_read {s : State} {a : Operand} {va : Word} (ha : resolveRead s a = .ok va) :
    exec (.out a) s = complete s (suspendAs s (.outputting va)) := by
  rw [exec, execOut, ha]
  rfl

/-! ### ARB -/

/-- The end of ARB, once the new base is computed. -/
def rebaseAndAdvance (s : State) (nrb : Word) : Except BlockFault State := do
  let np ← nextPc s 2
  .ok ((s.setRb nrb).setPc np)

theorem rebaseAndAdvance_of_le {s : State} (nrb : Word) (hpc : s.pc + 2 ≤ addrMax) :
    rebaseAndAdvance s nrb = .ok ((s.setRb nrb).setPc (s.pc + 2)) := by
  rw [rebaseAndAdvance, nextPc_of_le hpc]
  rfl

theorem rebaseAndAdvance_of_pc_overflow {s : State} (nrb : Word) (hpc : addrMax < s.pc + 2) :
    rebaseAndAdvance s nrb = .error .overflow := by
  rw [rebaseAndAdvance, nextPc_of_lt hpc]
  rfl

section
variable {s : State} {a : Operand} {va : Word} (ha : resolveRead s a = .ok va)
include ha

theorem exec_arb_of_read :
    exec (.arb a) s =
      complete s (checkWord s.config.overflow (s.rb.toInt + va.toInt) >>= rebaseAndAdvance s) := by
  rw [exec, execArb, ha]
  rfl

theorem exec_arb_of_base {nrb : Word} (hnrb : checkWord s.config.overflow (s.rb.toInt + va.toInt) = .ok nrb)
    (hpc : s.pc + 2 ≤ addrMax) : exec (.arb a) s = .next ((s.setRb nrb).setPc (s.pc + 2)) := by
  rw [exec_arb_of_read ha, hnrb]
  exact congrArg (complete s) (rebaseAndAdvance_of_le nrb hpc)

theorem exec_arb_of_base_error {f : BlockFault}
    (hnrb : checkWord s.config.overflow (s.rb.toInt + va.toInt) = .error f) :
    exec (.arb a) s = .next (s.takeFault f) := by
  rw [exec_arb_of_read ha, hnrb]
  rfl

/-- A next `pc` above `ADDR_MAX` gives `Overflow` whatever the new base, which can fault only with `Overflow` too. -/
theorem exec_arb_of_pc_overflow (hpc : addrMax < s.pc + 2) : exec (.arb a) s = .next (s.takeFault .overflow) := by
  cases hnrb : checkWord s.config.overflow (s.rb.toInt + va.toInt) with
  | error f => rw [exec_arb_of_base_error ha hnrb, checkWord_error f hnrb]
  | ok nrb =>
    rw [exec_arb_of_read ha, hnrb]
    exact congrArg (complete s) (rebaseAndAdvance_of_pc_overflow nrb hpc)

end

/-! ### The first operand that faults -/

theorem operandFault_read_eq_some_iff {s : State} {o : Operand} (f : BlockFault) :
    operandFault s (.read, o) = some f ↔ resolveRead s o = .error f := by
  rw [operandFault]
  cases resolveRead s o <;> simp

theorem operandFault_write_eq_some_iff {s : State} {o : Operand} (f : BlockFault) :
    operandFault s (.write, o) = some f ↔ resolveWrite s o = .error f := by
  rw [operandFault]
  cases resolveWrite s o <;> simp

/-- The first fault of a list of operands is the first operand's, or, where that one resolves, the first of the others. -/
theorem firstFault_cons {s : State} {ro : Role × Operand} {ros : List (Role × Operand)} {f : BlockFault}
    (h : (ro :: ros).findSome? (operandFault s) = some f) :
    operandFault s ro = some f ∨ (operandFault s ro = none ∧ ros.findSome? (operandFault s) = some f) := by
  rw [List.findSome?_cons] at h
  split at h
  next hf => exact .inl (hf.trans h)
  next hf => exact .inr ⟨hf, h⟩

/-- A computation that starts by resolving an operand raises the first fault of the operands, if what follows raises the first
fault of the others. -/
theorem bind_of_firstFault {α : Type} {s : State} {ro : Role × Operand} {ros : List (Role × Operand)} {f : BlockFault}
    {x : Except BlockFault α} {k : α → Except BlockFault State} (hx : ∀ e, operandFault s ro = some e ↔ x = .error e)
    (h : (ro :: ros).findSome? (operandFault s) = some f)
    (hk : ros.findSome? (operandFault s) = some f → ∀ v, k v = .error f) : (x >>= k) = .error f := by
  rcases firstFault_cons h with hfirst | ⟨hnone, hrest⟩
  · exact bind_error_iff.2 (.inl ((hx f).1 hfirst))
  · cases hv : x with
    | error e => exact nomatch hnone.symm.trans ((hx e).2 hv)
    | ok v => exact hk hrest v

theorem storeResult_of_firstFault {g : Word → Word → Except BlockFault Word} {a b c : Operand} {s : State} {f : BlockFault}
    (h : [(Role.read, a), (Role.read, b), (Role.write, c)].findSome? (operandFault s) = some f) :
    storeResult g a b c s = .error f :=
  bind_of_firstFault operandFault_read_eq_some_iff h fun h _ =>
    bind_of_firstFault operandFault_read_eq_some_iff h fun h _ =>
      bind_of_firstFault operandFault_write_eq_some_iff h nofun

theorem jumpIf_of_firstFault {taken : Word → Bool} {a b : Operand} {s : State} {f : BlockFault}
    (h : [(Role.read, a), (Role.read, b)].findSome? (operandFault s) = some f) : jumpIf taken a b s = .error f :=
  bind_of_firstFault operandFault_read_eq_some_iff h fun h _ =>
    bind_of_firstFault operandFault_read_eq_some_iff h nofun

/-- The first operand of an instruction that faults gives the instruction that fault. -/
theorem exec_of_firstFault {i : Instr} {s : State} {f : BlockFault} (h : i.roled.findSome? (operandFault s) = some f) :
    exec i s = .next (s.takeFault f) := by
  cases i with
  | add a b c => exact congrArg (complete s) (storeResult_of_firstFault h)
  | mul a b c => exact congrArg (complete s) (storeResult_of_firstFault h)
  | lt a b c => exact congrArg (complete s) (storeResult_of_firstFault h)
  | eq a b c => exact congrArg (complete s) (storeResult_of_firstFault h)
  | jt a b => exact congrArg (complete s) (jumpIf_of_firstFault h)
  | jf a b => exact congrArg (complete s) (jumpIf_of_firstFault h)
  | inp c => exact congrArg (complete s) (bind_of_firstFault operandFault_write_eq_some_iff h nofun)
  | out a => exact congrArg (complete s) (bind_of_firstFault operandFault_read_eq_some_iff h nofun)
  | arb a => exact congrArg (complete s) (bind_of_firstFault operandFault_read_eq_some_iff h nofun)
  | halt => cases h

end Sys2Proof.Machine
end

section
/-! The proofs of O18, O19 to O26 and O28 to O32. -/

namespace Sys2Proof.Certificates.Slice0

open Sys2Proof Sys2Proof.Machine

/-- Settles O18: every instruction resolves its operands in operand order before anything else it does. -/
theorem firstOperandFaultIsTaken : Obligations.FirstOperandFaultIsTaken := fun _ _ _ => exec_of_firstFault

/-- Settles O19: the sum is `CheckWord`'s, and the rest is the rule of the storing instructions. -/
theorem addStoresSum : Obligations.AddStoresSum := fun s _ _ _ _ _ _ _ ha hb hc hpc hheld hr =>
  congrArg (complete s) (storeResult_of_held ha hb hc (checkWord_of_isResult hr) hpc hheld)

/-- Settles O20: the product is `CheckWord`'s, and the rest is the rule of the storing instructions. -/
theorem mulStoresProduct : Obligations.MulStoresProduct := fun s _ _ _ _ _ _ _ ha hb hc hpc hheld hr =>
  congrArg (complete s) (storeResult_of_held ha hb hc (checkWord_of_isResult hr) hpc hheld)

/-- Settles O21: the result is the truth word of the signed comparison. -/
theorem ltStoresSignedComparison : Obligations.LtStoresSignedComparison := by
  intro s a b c va vb dst ha hb hc hpc hheld
  rw [← truthWord_decide]
  exact congrArg (complete s) (storeResult_of_held ha hb hc rfl hpc hheld)

/-- Settles O22: the result is the truth word of the equality. -/
theorem eqStoresEquality : Obligations.EqStoresEquality := by
  intro s a b c va vb dst ha hb hc hpc hheld
  rw [← truthWord_decide]
  exact congrArg (complete s) (storeResult_of_held ha hb hc rfl hpc hheld)

/-- Settles O23: the capacity check passes, so IN suspends with its destination latched. -/
theorem inLatchesDestination : Obligations.InLatchesDestination := fun s _ _ hc hheld hpc =>
  (exec_inp_of_held hc hheld).trans (congrArg (complete s) (suspendAs_of_le _ hpc))

/-- Settles O24: OUT suspends with its operand's value. -/
theorem outProducesValue : Obligations.OutProducesValue := fun s _ _ ha hpc =>
  (exec_out_of_read ha).trans (congrArg (complete s) (suspendAs_of_le _ hpc))

/-- Settles O25: JT is taken exactly when the tested value is not 0. -/
theorem jtBranches : Obligations.JtBranches := fun _ _ _ _ _ ha hb =>
  ⟨fun hva => complete_jumpIf_of_taken ha hb (testsTrue_iff.2 hva),
    fun hva => complete_jumpIf_of_not_taken ha hb (testsTrue_eq_false_iff.2 hva)⟩

/-- Settles O26: JF is taken exactly when the tested value is 0. -/
theorem jfBranches : Obligations.JfBranches := fun _ _ _ _ _ ha hb =>
  ⟨fun hva => complete_jumpIf_of_taken ha hb (testsFalse_iff.2 hva),
    fun hva => complete_jumpIf_of_not_taken ha hb (testsFalse_eq_false_iff.2 hva)⟩

/-- Settles O28: the new base is `CheckWord`'s. -/
theorem arbAdjustsRelativeBase : Obligations.ArbAdjustsRelativeBase := fun _ _ _ _ ha hpc hnrb =>
  exec_arb_of_base ha (checkWord_of_isResult hnrb) hpc

/-- Settles O29: HALT has one effect in every state. -/
theorem haltExitsInPlace : Obligations.HaltExitsInPlace := fun _ => rfl

/-- Settles O30: under `Fault`, `CheckWord` raises `Overflow` outside the word range, and the instruction raises it too. -/
theorem arithmeticOverflowFaults : Obligations.ArithmeticOverflowFaults := by
  intro s a b c va vb dst hpolicy ha hb hc
  have hcheck (v : Int) (hout : ¬inWord v) : checkWord s.config.overflow v = .error .overflow :=
    hpolicy ▸ checkWord_fault_of_not_inWord hout
  exact ⟨fun hout => congrArg (complete s) (storeResult_of_result_error ha hb hc (hcheck _ hout)),
    fun hout => congrArg (complete s) (storeResult_of_result_error ha hb hc (hcheck _ hout)),
    fun hout => exec_arb_of_base_error ha (hcheck _ hout)⟩

/-- Settles O31: the check of the next `pc` is made by each instruction, and the checks before it raise nothing but
`Overflow`. -/
theorem nextPcOverflowFaults : Obligations.NextPcOverflowFaults := by
  intro s a b c va vb dst ha hb hc
  refine ⟨fun hpc => ?stores, fun hpc => ⟨fun hva => ?jt, fun hva => ?jf⟩,
    fun hpc => ⟨?out, exec_arb_of_pc_overflow ha hpc, fun hheld => ?inp⟩⟩
  case stores =>
    have hstores (g : Word → Word → Except BlockFault Word) (hg : ∀ f, g va vb = .error f → f = .overflow) :=
      congrArg (complete s) (storeResult_of_pc_overflow ha hb hc hg hpc)
    exact ⟨hstores _ checkWord_error, hstores _ checkWord_error, hstores (fun _ _ => .ok _) nofun,
      hstores (fun _ _ => .ok _) nofun⟩
  case jt => exact complete_jumpIf_of_not_taken_of_pc_overflow ha hb (testsTrue_eq_false_iff.2 hva) hpc
  case jf => exact complete_jumpIf_of_not_taken_of_pc_overflow ha hb (testsFalse_eq_false_iff.2 hva) hpc
  case out => exact (exec_out_of_read ha).trans (congrArg (complete s) (suspendAs_of_pc_overflow _ hpc))
  case inp => exact (exec_inp_of_held hc hheld).trans (congrArg (complete s) (suspendAs_of_pc_overflow _ hpc))

/-- Settles O32: the store does not hold the destination; the storing instructions find that last and IN first. -/
theorem beyondCapacityFaults : Obligations.BeyondCapacityFaults := by
  intro s a b c va vb dst cap hcap hle ha hb hc
  have hbeyond : Capacity.holds s.config.capacity dst = false := hcap ▸ Capacity.holds_bounded_of_le hle
  refine ⟨exec_inp_of_not_held hc hbeyond, fun hpc => ?_⟩
  have hstores (g : Word → Word → Except BlockFault Word) {r : Word} (hg : g va vb = .ok r) :=
    congrArg (complete s) (storeResult_of_not_held ha hb hc hg hpc hbeyond)
  exact ⟨fun hr => hstores _ (checkWord_ok_iff.2 ⟨hr, rfl⟩), fun hr => hstores _ (checkWord_ok_iff.2 ⟨hr, rfl⟩),
    hstores (fun va vb => .ok (truthWord (lessThan va vb))) rfl, hstores (fun va vb => .ok (truthWord (equals va vb))) rfl⟩

end Sys2Proof.Certificates.Slice0
end

section
/-! SUPPORT. What a completing instruction changes and what it leaves (40_execution_cycle.md R107), read off `Completes` one
field at a time, and by the shape of the instruction. -/

namespace Sys2Proof.Machine

open Sys2Proof

/-- The next state of an instruction is that of a completion, or of fault entry. -/
theorem exec_next_cases {i : Instr} {s t : State} (h : exec i s = .next t) :
    Completes s i t ∨ ∃ f, t = s.takeFault f ∧ ExecFault s f := by
  rcases exec_cases i s with ⟨u, hu, hcomp⟩ | ⟨f, hf, hfault⟩
  · cases hu.symm.trans h
    exact .inl hcomp
  · cases hf.symm.trans h
    exact .inr ⟨f, rfl, hfault⟩

theorem takeFault_sameSurroundings (s : State) (f : BlockFault) : sameSurroundings s (s.takeFault f) :=
  ⟨rfl, rfl, rfl, rfl, rfl, rfl⟩

/-- The mark, the parameters and the host's side of the protocol are beyond every instruction's reach. -/
theorem exec_sameSurroundings {i : Instr} {s t : State} (h : exec i s = .next t) : sameSurroundings s t := by
  rcases exec_next_cases h with hcomp | ⟨f, rfl, _⟩
  · exact hcomp.sameSurroundings
  · exact takeFault_sameSurroundings s f

/-! ### By the shape of the instruction -/

section
variable {i : Instr} {a b c : Operand} {s t : State}

theorem Completes.of_storing (hi : i = .add a b c ∨ i = .mul a b c ∨ i = .lt a b c ∨ i = .eq a b c)
    (h : Completes s i t) : ∃ dst r, resolveWrite s c = .ok dst ∧ t = (s.store dst r).setPc (s.pc + 4) := by
  cases h with
  | stores _ a' b' c' dst r shape address _ _ =>
    have hc : c' = c := by rcases hi with rfl | rfl | rfl | rfl <;> simp_all
    exact ⟨dst, r, hc ▸ address, rfl⟩
  | jumps _ a' b' np shape _ => rcases shape with rfl | rfl <;> simp at hi
  | awaits | outputs | adjusts | halts => simp at hi

theorem Completes.of_jump (hi : i = .jt a b ∨ i = .jf a b) (h : Completes s i t) : ∃ np, t = s.setPc np := by
  cases h with
  | jumps _ a' b' np _ _ => exact ⟨np, rfl⟩
  | stores _ a' b' c' dst r shape _ _ _ => rcases shape with rfl | rfl | rfl | rfl <;> simp at hi
  | awaits | outputs | adjusts | halts => simp at hi

theorem Completes.of_arb (h : Completes s (.arb a) t) : ∃ nrb, t = (s.setRb nrb).setPc (s.pc + 2) := by
  cases h with
  | adjusts _ v nrb _ _ => exact ⟨nrb, rfl⟩
  | stores _ a' b' c' dst r shape _ _ _ => simp at shape
  | jumps _ a' b' np shape _ => simp at shape

theorem Completes.of_halt (h : Completes s .halt t) : t = s.setStatus (.exit .halted) := by
  cases h with
  | halts => rfl
  | stores _ a' b' c' dst r shape _ _ _ => simp at shape
  | jumps _ a' b' np shape _ => simp at shape

/-! ### By the field -/

/-- ADD, MUL, LT or EQ: the instructions that store. -/
def IsStoring (i : Instr) : Prop := ∃ a b c, i = .add a b c ∨ i = .mul a b c ∨ i = .lt a b c ∨ i = .eq a b c

theorem Completes.rb_cases (h : Completes s i t) : t.rb = s.rb ∨ ∃ a, i = .arb a := by
  cases h with
  | adjusts a => exact .inr ⟨a, rfl⟩
  | stores | jumps | awaits | outputs | halts => exact .inl rfl

theorem Completes.mem_cases (h : Completes s i t) :
    t.mem = s.mem ∨ (IsStoring i ∧ ∃ dst r, dst ≤ addrMax ∧ Capacity.holds s.config.capacity dst = true ∧
      t.mem = s.mem.write dst r) := by
  cases h with
  | stores _ a b c dst r shape address held _ => exact .inr ⟨⟨a, b, c, shape⟩, dst, r, resolveWrite_le address, held, rfl⟩
  | jumps | awaits | outputs | adjusts | halts => exact .inl rfl

/-- No instruction moves `pc` out of the address range (10_state.md R21). -/
theorem Completes.pc_le (h : Completes s i t) (hpc : s.pc ≤ addrMax) : t.pc ≤ addrMax := by
  cases h with
  | stores _ _ _ _ _ _ _ _ _ next => exact next
  | jumps _ _ _ _ _ next => exact next
  | awaits _ _ _ _ next => exact next
  | outputs _ _ _ next => exact next
  | adjusts _ _ _ _ next => exact next
  | halts => exact hpc

/-- Only IN, OUT and HALT set the status when they complete (10_state.md R29), and where `pc` is then (60_exceptions.md
R172). -/
theorem Completes.status_cases (h : Completes s i t) :
    t.status = s.status ∨
      (∃ c dst, i = .inp c ∧ resolveWrite s c = .ok dst ∧ Capacity.holds s.config.capacity dst = true ∧
        t.status = .awaiting dst ∧ t.pc = s.pc + 2) ∨
      (∃ a v, i = .out a ∧ resolveRead s a = .ok v ∧ t.status = .outputting v ∧ t.pc = s.pc + 2) ∨
      (i = .halt ∧ t.status = .exit .halted ∧ t.pc = s.pc) := by
  cases h with
  | stores | jumps | adjusts => exact .inl rfl
  | awaits c dst address held _ => exact .inr (.inl ⟨c, dst, rfl, address, held, rfl, rfl⟩)
  | outputs a v value _ => exact .inr (.inr (.inl ⟨a, v, rfl, value, rfl, rfl⟩))
  | halts => exact .inr (.inr (.inr ⟨rfl, rfl, rfl⟩))

end

end Sys2Proof.Machine
end

section
/-! The proofs of O33 to O36. -/

namespace Sys2Proof.Certificates.Slice0

open Sys2Proof Sys2Proof.Machine

/-- Settles O33: a completing instruction stores at the address its write operand resolves to and advances `pc`. -/
theorem storingFrame : Obligations.StoringFrame := by
  intro i a b c s t hi hexec
  have hsame := exec_sameSurroundings hexec
  rcases exec_next_cases hexec with hcomp | ⟨f, rfl, _⟩
  · obtain ⟨dst, r, hdst, rfl⟩ := hcomp.of_storing hi
    refine ⟨rfl, .inl rfl, hsame, fun dst' hdst' x hne => ?other, fun f hf => ?unresolved⟩
    case other =>
      obtain rfl : dst = dst' := Except.ok.inj (hdst.symm.trans hdst')
      exact Memory.read_write_other s.mem r hne
    case unresolved => exact nomatch hdst.symm.trans hf
  · exact ⟨rfl, .inr ⟨f, rfl⟩, hsame, fun _ _ _ _ => rfl, fun _ _ _ => rfl⟩

/-- Settles O34: a completing jump sets `pc` alone. -/
theorem jumpFrame : Obligations.JumpFrame := by
  intro i a b s t hi hexec
  have hsame := exec_sameSurroundings hexec
  rcases exec_next_cases hexec with hcomp | ⟨f, rfl, _⟩
  · obtain ⟨np, rfl⟩ := hcomp.of_jump hi
    exact ⟨rfl, .inl rfl, hsame, fun _ => rfl⟩
  · exact ⟨rfl, .inr ⟨f, rfl⟩, hsame, fun _ => rfl⟩

/-- Settles O35: a completing ARB sets `rb` and `pc` alone, and a faulting one the status alone. -/
theorem arbFrame : Obligations.ArbFrame := by
  intro a s t hexec
  have hsame := exec_sameSurroundings hexec
  rcases exec_next_cases hexec with hcomp | ⟨f, rfl, _⟩
  · obtain ⟨nrb, rfl⟩ := hcomp.of_arb
    exact ⟨.inl rfl, hsame, fun hchanged => absurd rfl hchanged, fun _ => rfl⟩
  · exact ⟨.inr ⟨f, rfl⟩, hsame, fun _ => ⟨rfl, rfl⟩, fun _ => rfl⟩

/-- Settles O36: only ARB sets `rb` and only the storing instructions set memory, and IN, OUT and HALT are none of them. -/
theorem suspendingFrame : Obligations.SuspendingFrame := by
  intro i o s t hi hexec
  have hsame := exec_sameSurroundings hexec
  rcases exec_next_cases hexec with hcomp | ⟨f, rfl, _⟩
  · have hrb : t.rb = s.rb := hcomp.rb_cases.resolve_right (by rintro ⟨a, rfl⟩; simp at hi)
    have hmem : t.mem = s.mem := hcomp.mem_cases.resolve_right (by
      rintro ⟨⟨a, b, c, rfl | rfl | rfl | rfl⟩, _⟩ <;> simp at hi)
    refine ⟨hrb, hsame, fun hhalt => ?_, fun x => by rw [hmem]⟩
    subst hhalt
    rw [hcomp.of_halt, State.setStatus_pc]
  · exact ⟨rfl, hsame, fun _ => rfl, fun _ => rfl⟩

end Sys2Proof.Certificates.Slice0
end

section
/-! SUPPORT. `StepEffect`: everything a step that answers a next state can do, of the engine and of the host, as one list of
cases, from which each invariant of the step is read (60_exceptions.md R166, R168, R174 to R185). -/

namespace Sys2Proof.Machine

open Sys2Proof

/-! ### The faults of a step have legal payloads -/

theorem Capacity.ne_unbounded_of_not_holds {cap : Capacity} {a : Nat} (h : Capacity.holds cap a = false) :
    cap ≠ .unbounded := by
  rintro rfl
  cases h

theorem ExecFault.legal {s : State} {f : BlockFault} (h : ExecFault s f) : f.legal s.config := by
  rcases h with rfl | rfl | rfl | ⟨rfl, a, ha⟩
  · exact trivial
  · exact trivial
  · exact trivial
  · exact Capacity.ne_unbounded_of_not_holds ha

/-- A selector that selects no operation is in `[-99, 98]`: it is a remainder by 100, and 99 is HALT's
(60_exceptions.md R160). -/
theorem selectorOf_le_of_illegal {w : Word} (h : Opcode.ofSelector (selectorOf w) = none) : selectorOf w ≤ 98 := by
  have hne : selectorOf w ≠ Opcode.halt.selector := by
    intro heq
    rw [heq, Opcode.ofSelector_selector] at h
    cases h
  have := (selectorOf_bounds w).2
  simp only [Opcode.selector] at hne
  omega

theorem legal_of_fetchInstr_fault {s : State} {f : BlockFault} (h : fetchInstr s = .error (.fault f)) :
    f.legal s.config := by
  rcases fetchInstr_error h with ⟨t, he, rfl, ho⟩ | ⟨d, he, hd⟩ | he | ⟨he, a, ha⟩ | ⟨he, _⟩
  · cases he
    exact ⟨(selectorOf_bounds _).1, selectorOf_le_of_illegal ho, ho⟩
  · cases he
    exact hd
  · cases he
    exact trivial
  · cases he
    exact Capacity.ne_unbounded_of_not_holds ha
  · cases he

theorem excess_of_fetchInstr_refuse {s : State} (h : fetchInstr s = .error .refuse) : s.config.excess = .refuse := by
  rcases fetchInstr_error h with ⟨t, he, _⟩ | ⟨d, he, _⟩ | he | ⟨he, _⟩ | ⟨_, hx⟩
  · cases he
  · cases he
  · cases he
  · cases he
  · exact hx

/-! ### The effects of a step -/

section
variable {s : State} {c : Command} {cs : List Command}

theorem State.running.turn_eq (h : s.running) : s.turn = .engine := h.2.2.1
theorem State.running.status_eq (h : s.running) : s.status = .paused := h.2.2.2
theorem State.hostIssues.turn_eq (h : s.hostIssues c cs) : s.turn = .host := h.2.2.1
theorem State.hostIssues.commands_eq (h : s.hostIssues c cs) : s.commands = c :: cs := h.2.2.2

end

/-- How a step changes the state. The last case is every step of the host that leaves the block and its outputs as they are:
nothing to issue, INSPECT, abandoning, and a command that aborts the host. -/
inductive StepEffect (s : State) : State → Prop where
  | completes (i : Instr) (u : State) (running : s.running) (fetched : fetchInstr s = .ok i)
      (completed : Completes s i u) : StepEffect s u.returnIfSuspended
  | faults (f : BlockFault) (running : s.running) (legal : f.legal s.config) : StepEffect s (faultedRun s f)
  | refuses (running : s.running) (excess : s.config.excess = .refuse) : StepEffect s { s with refused := true }
  | returns (engine : s.turn = .engine) (suspended : s.status ≠ .paused) : StepEffect s s.returnIfSuspended
  | loads (p : List Word) (cs : List Command) (issued : s.hostIssues (.load p) cs)
      (fits : programFits s.config.capacity p = true) : StepEffect s (State.load { s with commands := cs } p)
  | feeds (x : Word) (cs : List Command) (dst : Nat) (issued : s.hostIssues (.feed x) cs)
      (waits : s.status = .awaiting dst) :
      StepEffect s ((State.store { s with commands := cs } dst x).setStatus .paused)
  | resumes (cs : List Command) (issued : s.hostIssues .resume cs) : StepEffect s (State.resume { s with commands := cs })
  | keeps (cs : List Command) (rs : List Reply) (e : Option HostError) (host : s.turn = .host)
      (remaining : cs ⊆ s.commands) (silent : outputsOf rs = outputsOf s.replies) :
      StepEffect s { s with commands := cs, replies := rs, aborted := e }

theorem StepEffect.of_issue {s : State} {c : Command} {cs : List Command} (h : s.hostIssues c cs) :
    StepEffect s (issue c { s with commands := cs }) := by
  have hsub : cs ⊆ s.commands := by
    rw [h.commands_eq]
    exact List.subset_cons_self c cs
  rcases issue_cases { s with commands := cs } c with ⟨p, rfl, hfits, ht⟩ | ⟨x, dst, rfl, hs, ht⟩ | ⟨rfl, ht⟩ |
    ⟨a, rfl, _, ht⟩ | ⟨rfl, ht⟩ | ⟨e, ht⟩
  · exact ht ▸ .loads p cs h hfits
  · exact ht ▸ .feeds x cs dst h hs
  · exact ht ▸ .resumes cs h
  · exact ht ▸ .keeps cs _ s.aborted h.turn_eq hsub (by simp [outputsOf_append])
  · exact ht ▸ .keeps cs s.replies s.aborted h.turn_eq hsub rfl
  · exact ht ▸ .keeps cs s.replies (some e) h.turn_eq hsub rfl

/-- The list of effects is complete. -/
theorem stepEffect {s t : State} (h : step s = .next t) : StepEffect s t := by
  obtain ⟨hr, ha, ⟨hhost, rfl⟩ | ⟨hrun, _⟩ | ⟨hengine, hs, rfl⟩⟩ := step_cases h
  · rcases hostMove_cases s with ⟨_, ht⟩ | ⟨c, cs, hc, ht⟩
    · rw [ht]
      exact .keeps s.commands s.replies s.aborted hhost (List.Subset.refl _) rfl
    · rw [ht]
      exact .of_issue ⟨hr, ha, hhost, hc⟩
  · rcases step_cases_of_running hrun h with ⟨i, u, hi, hcomp, rfl⟩ | ⟨f, rfl, hf⟩ | ⟨hi, rfl⟩
    · exact .completes i u hrun hi hcomp
    · rcases hf with ⟨_, _, hexec⟩ | hfetch
      · exact .faults f hrun hexec.legal
      · exact .faults f hrun (legal_of_fetchInstr_fault hfetch)
    · exact .refuses hrun (excess_of_fetchInstr_refuse hi)
  · exact .returns hengine hs

/-- Only the mark makes a step answer a refusal. -/
theorem refused_of_step_refused {s : State} {r : Refusal} (h : step s = .refused r) : s.refused = true := by
  rw [step, advance] at h
  split at h
  next hr => exact hr
  next =>
    exfalso
    split at h
    · cases h
    · split at h
      · cases h
      · split at h
        next =>
          rw [engineStep] at h
          split at h
          next i _ => rcases exec_cases i s with ⟨u, hu, _⟩ | ⟨f, hf, _⟩ <;> simp_all [afterInstr]
          · cases h
          · cases h
        all_goals cases h

/-! ### RESUME by the status it starts from -/

/-- RESUME in Paused or Outputting hands the move to the engine (60_exceptions.md R175, R176). -/
theorem State.resume_of_starts {s : State} (h : s.status.discardOutput = .paused) :
    s.resume = { s with status := .paused, turn := .engine } := by
  rw [State.resume, h]
  exact State.returnIfSuspended_of_paused rfl

/-- RESUME in Awaiting or Exit returns the status (60_exceptions.md R175, R178). -/
theorem State.resume_of_stays {s : State} (hstays : s.status.discardOutput = s.status) (hs : s.status ≠ .paused) :
    s.resume = { s with turn := .host, replies := s.replies ++ [.resumed s.status] } := by
  rw [State.resume, hstays]
  exact State.returnIfSuspended_of_suspended (s := { s with turn := .engine }) hs

/-- A RESUME that changes the status discards an output (60_exceptions.md R176). -/
theorem Status.eq_outputting_of_discardOutput_ne {st : Status} (h : st.discardOutput ≠ st) : ∃ v, st = .outputting v := by
  cases st with
  | outputting v => exact ⟨v, rfl⟩
  | paused | awaiting | exit => exact absurd rfl h

theorem Status.discardOutput_eq_exit_iff {st : Status} {r : ExitReason} : st.discardOutput = .exit r ↔ st = .exit r := by
  cases st <;> simp [Status.discardOutput]

/-! ### The test of the run loop -/

/-- After the test of the run loop it is the engine's turn only while Paused (40_execution_cycle.md R110). -/
theorem State.paused_of_returnIfSuspended_turn {u : State} (h : u.returnIfSuspended.turn = .engine) :
    u.status = .paused := by
  rcases u.returnIfSuspended_cases with ⟨hp, _⟩ | ⟨_, hu⟩
  · exact hp
  · rw [hu] at h
    cases h

theorem outputsOf_resumed (st : Status) : outputsOf [.resumed st] = st.outValue.toList := by cases st <;> rfl

theorem State.outputsOf_returnIfSuspended (u : State) :
    outputsOf u.returnIfSuspended.replies = outputsOf u.replies ++ u.status.outValue.toList := by
  rcases u.returnIfSuspended_cases with ⟨hp, hu⟩ | ⟨_, hu⟩
  · rw [hu, hp]
    exact (List.append_nil _).symm
  · rw [hu, outputsOf_append, outputsOf_resumed]

end Sys2Proof.Machine
end

section
/-! SUPPORT. The invariant and what it asks of each effect of a step (10_state.md R21, R26, R27; 20_memory.md R50). -/

namespace Sys2Proof.Machine

open Sys2Proof

/-- Memory as the invariant has it: in canonical form, and listing only addresses that the store holds. -/
def MemInv (c : Config) (m : Memory) : Prop :=
  m.wf ∧ ∀ e ∈ m, e.1 ≤ addrMax ∧ Capacity.holds c.capacity e.1 = true

theorem Inv.memInv {s : State} (h : Inv s) : MemInv s.config s.mem := ⟨h.mem_canonical, h.mem_held⟩

theorem MemInv.write {c : Config} {m : Memory} {a : Nat} (h : MemInv c m) (ha : a ≤ addrMax)
    (hheld : Capacity.holds c.capacity a = true) (v : Word) : MemInv c (m.write a v) := by
  refine ⟨Memory.wf_write h.1 a v, fun e he => ?_⟩
  rcases Memory.mem_write he with rfl | he
  · exact ⟨ha, hheld⟩
  · exact h.2 e he

/-- A program that fits has an image at addresses that the store holds (70_reset_and_hazards.md R192). -/
theorem MemInv.image {c : Config} {p : List Word} (hfits : programFits c.capacity p = true) :
    MemInv c (Memory.image 0 p) := by
  obtain ⟨hlen, hcap⟩ := (Bool.and_eq_true _ _).mp hfits
  refine ⟨Memory.wf_image 0 p, fun e he => ?_⟩
  have hlt : e.1 < p.length := by simpa using (Memory.mem_image he).2
  refine ⟨by have := of_decide_eq_true hlen; omega, ?_⟩
  cases hc : c.capacity with
  | unbounded => exact Capacity.holds_unbounded e.1
  | bounded n =>
    rw [hc] at hcap
    exact Capacity.holds_bounded_of_lt (hlt.trans_le (of_decide_eq_true hcap))

/-- The test of the run loop gives the turn to the host where the status is not Paused, so it asks for all of the invariant
but that. -/
theorem Inv.of_returnIfSuspended {u : State} (hpc : u.pc ≤ addrMax) (hmem : MemInv u.config u.mem)
    (hstatus : u.status.legal u.config) (hmark : u.refused = true → u.config.excess = .refuse) :
    Inv u.returnIfSuspended where
  pc_address := by simpa using hpc
  mem_canonical := by simpa using hmem.1
  mem_held := by simpa using hmem.2
  status_legal := by simpa using hstatus
  engine_paused := fun hturn => by simpa using State.paused_of_returnIfSuspended_turn hturn
  refused_only := by simpa using hmark

theorem Status.legal_discardOutput {c : Config} {st : Status} (h : st.legal c) : st.discardOutput.legal c := by
  cases st with
  | outputting => exact trivial
  | paused | awaiting | exit => exact h

/-- The status a completing instruction leaves is legal (10_state.md R26, R27). -/
theorem Completes.status_legal {s t : State} {i : Instr} (h : Completes s i t) (hs : s.status.legal s.config) :
    t.status.legal s.config := by
  rcases h.status_cases with ht | ⟨_, dst, _, address, held, ht, _⟩ | ⟨_, v, _, _, ht, _⟩ | ⟨_, ht, _⟩
  · exact ht ▸ hs
  · exact ht ▸ ⟨resolveWrite_le address, held⟩
  · exact ht ▸ trivial
  · exact ht ▸ trivial

theorem Completes.memInv {s t : State} {i : Instr} (h : Completes s i t) (hs : MemInv s.config s.mem) :
    MemInv s.config t.mem := by
  rcases h.mem_cases with ht | ⟨_, dst, r, hdst, hheld, ht⟩
  · exact ht ▸ hs
  · exact ht ▸ hs.write hdst hheld r

/-- Every effect of a step keeps the invariant. -/
theorem StepEffect.inv {s t : State} (h : StepEffect s t) (hinv : Inv s) : Inv t := by
  have hmark := hinv.refused_only
  cases h with
  | completes i u running fetched completed =>
    obtain ⟨hr, hc, _⟩ := completed.sameSurroundings
    refine .of_returnIfSuspended (completed.pc_le hinv.pc_address) ?_ ?_ ?_
    · rw [hc]
      exact completed.memInv hinv.memInv
    · rw [hc]
      exact completed.status_legal hinv.status_legal
    · rwa [hr, hc]
  | faults f running legal =>
    rw [← returnIfSuspended_takeFault]
    exact .of_returnIfSuspended hinv.pc_address hinv.memInv legal hmark
  | refuses running excess => exact { hinv with refused_only := fun _ => excess }
  | returns engine suspended => exact .of_returnIfSuspended hinv.pc_address hinv.memInv hinv.status_legal hmark
  | loads p cs issued fits =>
    exact ⟨Nat.zero_le _, (MemInv.image fits).1, (MemInv.image fits).2, trivial, nofun, nofun⟩
  | feeds x cs dst issued waits =>
    have hdst := hinv.status_legal
    rw [waits] at hdst
    have hmem := hinv.memInv.write hdst.1 hdst.2 x
    exact ⟨hinv.pc_address, hmem.1, hmem.2, trivial, fun _ => rfl, hmark⟩
  | resumes cs issued =>
    exact .of_returnIfSuspended hinv.pc_address hinv.memInv (Status.legal_discardOutput hinv.status_legal) hmark
  | keeps cs rs e host _ _ =>
    exact ⟨hinv.pc_address, hinv.mem_canonical, hinv.mem_held, hinv.status_legal, hinv.engine_paused, hmark⟩

end Sys2Proof.Machine
end

section
/-! The proofs of O60 and O59. -/

namespace Sys2Proof.Certificates.Slice0

open Sys2Proof Sys2Proof.Machine

/-- Settles O60: each effect of a step keeps each part of the invariant. -/
theorem stepKeepsInvariant : Obligations.StepKeepsInvariant := fun _ _ hinv h => (stepEffect h).inv hinv

/-- Settles O59: `pc` is 0, memory is empty, the status is Paused, the host moves and the mark is clear. -/
theorem resetMeetsInvariant : Obligations.ResetMeetsInvariant :=
  ⟨Nat.zero_le _, State.reset_mem_wf, nofun, trivial, nofun, nofun⟩

end Sys2Proof.Certificates.Slice0
end

section
/-! SUPPORT. What a run does once the status is Exit (10_state.md R30). -/

namespace Sys2Proof.Machine

open Sys2Proof

/-- `t` is a later state of the run that `s` has reached the end of: the block, the mark and the outputs are the same, it is
the host's turn, and no command was added. -/
structure StaysExited (s t : State) : Prop where
  block : sameBlock s t
  mark : t.refused = s.refused
  outputs : outputsOf t.replies = outputsOf s.replies
  host : t.turn = .host
  remaining : t.commands ⊆ s.commands

theorem StaysExited.refl {s : State} (h : s.turn = .host) : StaysExited s s :=
  ⟨⟨rfl, rfl, rfl, rfl⟩, rfl, rfl, h, List.Subset.refl _⟩

theorem StaysExited.trans {s t u : State} (h : StaysExited s t) (h' : StaysExited t u) : StaysExited s u := by
  obtain ⟨⟨hpc, hrb, hst, hmem⟩, hr, ho, _, hc⟩ := h
  obtain ⟨⟨hpc', hrb', hst', hmem'⟩, hr', ho', hturn, hc'⟩ := h'
  exact ⟨⟨hpc'.trans hpc, hrb'.trans hrb, hst'.trans hst, hmem'.trans hmem⟩, hr'.trans hr, ho'.trans ho, hturn,
    List.Subset.trans hc' hc⟩

/-- A step after the exit keeps everything, unless it is a LOAD. -/
theorem StepEffect.staysExited {s t : State} {r : ExitReason} (h : StepEffect s t) (hs : s.status = .exit r)
    (hhost : s.turn = .host) (hload : ∀ p, Command.load p ∉ s.commands) : StaysExited s t := by
  cases h with
  | completes i u running => exact nomatch hs.symm.trans running.status_eq
  | faults f running => exact nomatch hs.symm.trans running.status_eq
  | refuses running => exact nomatch hs.symm.trans running.status_eq
  | returns engine => exact nomatch hhost.symm.trans engine
  | loads p cs issued => exact absurd (by simp [issued.commands_eq]) (hload p)
  | feeds x cs dst issued waits => exact nomatch hs.symm.trans waits
  | resumes cs issued =>
    have hstays : s.status.discardOutput = s.status := by rw [hs]; rfl
    have hresume := State.resume_of_stays (s := { s with commands := cs }) hstays (by simp [hs])
    rw [hresume]
    exact ⟨⟨rfl, rfl, rfl, rfl⟩, rfl, by simp [outputsOf_append, hs], rfl, by simp [issued.commands_eq]⟩
  | keeps cs rs e host remaining silent => exact ⟨⟨rfl, rfl, rfl, rfl⟩, rfl, silent, host, remaining⟩

/-- A run of any length after the exit keeps everything, and an abort that stands stops it before its first step. -/
theorem run_staysExited {n : Nat} {s t : State} {r : ExitReason} (hs : s.status = .exit r) (hhost : s.turn = .host)
    (hload : ∀ p, Command.load p ∉ s.commands) (h : Sys2Proof.core.run n s = .next t) :
    StaysExited s t ∧ (t.aborted = none → s.aborted = none) := by
  induction n generalizing s with
  | zero =>
    cases h
    exact ⟨.refl hhost, id⟩
  | succ n ih =>
    obtain ⟨u, hstep, hrun⟩ := run_succ_cases h
    have hsu : StaysExited s u := (stepEffect hstep).staysExited hs hhost hload
    obtain ⟨_, _, hst, _⟩ := hsu.block
    have hut := ih (hst.trans hs) hsu.host (fun p hp => hload p (hsu.remaining hp)) hrun
    obtain ⟨_, hclean, _⟩ := step_cases hstep
    exact ⟨hsu.trans hut.1, fun _ => hclean⟩

/-- A run whose host aborted has not ended and yields nothing (60_exceptions.md R187). -/
theorem State.not_ended_of_aborted {s : State} (h : s.aborted ≠ none) : ¬s.ended ∧ s.yielded = none := by
  have hreason : s.endReason = none := Option.eq_none_iff_forall_not_mem.2 fun r hr =>
    h (State.endReason_eq_some_iff.1 hr).2.1
  exact ⟨fun ⟨r, hr⟩ => (nomatch hreason.symm.trans hr), by rw [State.yielded, hreason]; rfl⟩

end Sys2Proof.Machine
end

section
/-! The proof of O47. -/

namespace Sys2Proof.Certificates.Slice0

open Sys2Proof Sys2Proof.Machine

/-- Settles O47, by induction on the number of steps: each keeps all that the yield reads but the abort. -/
theorem exitIsTerminal : Obligations.ExitIsTerminal := by
  intro n s t r hs hhost hload hrun
  obtain ⟨hstays, hclean⟩ := run_staysExited hs hhost hload hrun
  obtain ⟨hpc, hrb, hst, hmem⟩ := hstays.block
  refine ⟨hstays.block, hstays.mark, fun hnone => ?_, State.not_ended_of_aborted⟩
  exact State.yielded_congr hpc hrb hst hmem hstays.mark (hnone.trans (hclean hnone).symm) hstays.outputs

end Sys2Proof.Certificates.Slice0
end

section
/-! SUPPORT. What each effect of a step leaves unchanged, and what the return of control to the host tells (60_exceptions.md
R166, R172, R178, R187). -/

namespace Sys2Proof.Machine

open Sys2Proof

/-- No effect of a step changes the parameters. -/
theorem StepEffect.config_eq {s t : State} (h : StepEffect s t) : t.config = s.config := by
  cases h with
  | completes i u running fetched completed =>
    obtain ⟨_, hc, _⟩ := completed.sameSurroundings
    exact (State.returnIfSuspended_config u).trans hc
  | returns => exact State.returnIfSuspended_config s
  | resumes => exact State.resume_config _
  | faults | refuses | loads | feeds | keeps => rfl

/-- No completing instruction leaves the status Exit of a fault, unless it was that. -/
theorem Completes.status_ne_fault {s t : State} {i : Instr} {f : BlockFault} (h : Completes s i t)
    (hs : s.status = .paused) : t.status ≠ .exit (.fault f) := by
  rcases h.status_cases with ht | ⟨_, _, _, _, _, ht, _⟩ | ⟨_, _, _, _, ht, _⟩ | ⟨_, ht, _⟩ <;> simp [ht, hs]

/-- A step that leaves the status Exit of a fault entered that fault, in a running RESUME, or found the status so. -/
theorem StepEffect.fault_cases {s t : State} {f : BlockFault} (h : StepEffect s t) (ht : t.status = .exit (.fault f)) :
    s.status = .exit (.fault f) ∨ (s.running ∧ f.legal s.config ∧ t = faultedRun s f) := by
  cases h with
  | completes i u running fetched completed =>
    rw [State.returnIfSuspended_status] at ht
    exact absurd ht (completed.status_ne_fault running.status_eq)
  | faults g running legal =>
    cases ht
    exact .inr ⟨running, legal, rfl⟩
  | refuses => exact .inl ht
  | returns => exact .inl ((State.returnIfSuspended_status s).symm.trans ht)
  | loads | feeds => cases ht
  | resumes cs =>
    rw [State.resume_status] at ht
    exact .inl (Status.discardOutput_eq_exit_iff.1 ht)
  | keeps => exact .inl ht

/-- A step from Exit stays there, unless the host issues LOAD (10_state.md R30). -/
theorem StepEffect.exit_cases {s t : State} {r : ExitReason} (h : StepEffect s t) (hs : s.status = .exit r) :
    t.status = .exit r ∨ ∃ p cs, s.hostIssues (.load p) cs := by
  cases h with
  | completes i u running => exact nomatch hs.symm.trans running.status_eq
  | faults f running => exact nomatch hs.symm.trans running.status_eq
  | refuses => exact .inl hs
  | returns => exact .inl ((State.returnIfSuspended_status s).trans hs)
  | loads p cs issued => exact .inr ⟨p, cs, issued⟩
  | feeds x cs dst issued waits => exact nomatch hs.symm.trans waits
  | resumes cs => exact .inl ((State.resume_status _).trans (Status.discardOutput_eq_exit_iff.2 hs))
  | keeps => exact .inl hs

/-- Which instruction a running RESUME suspended at, and where it left `pc` (60_exceptions.md R172). -/
theorem Completes.suspension {s u : State} {i : Instr} (h : Completes s i u) (hs : s.status = .paused) :
    (∀ dst, u.status = .awaiting dst → (∃ c, i = .inp c) ∧ u.pc = s.pc + 2) ∧
      (∀ v, u.status = .outputting v → (∃ a, i = .out a) ∧ u.pc = s.pc + 2) ∧
      (∀ r, u.status = .exit r → u.pc = s.pc) ∧ (u.status = .exit .halted → i = .halt) := by
  rcases h.status_cases with hu | ⟨c, dst, rfl, _, _, hu, hpc⟩ | ⟨a, v, rfl, _, hu, hpc⟩ | ⟨rfl, hu, hpc⟩
  · simp [hu, hs]
  · simp [hu, hpc]
  · simp [hu, hpc]
  · simp [hu, hpc]

/-- What the return to the host tells, for a state `u` that the engine reached in the RESUME running in `s`. -/
theorem returnIfSuspended_control {s u : State} (hrun : s.running) (hsame : sameSurroundings s u) :
    (u.returnIfSuspended.turn = .host ↔ u.returnIfSuspended.status ≠ .paused) ∧
      (u.returnIfSuspended.status ≠ .paused →
        u.returnIfSuspended.replies = s.replies ++ [.resumed u.returnIfSuspended.status]) ∧
      outputsOf u.returnIfSuspended.replies = outputsOf s.replies ++ u.returnIfSuspended.status.outValue.toList ∧
      ∀ r, u.returnIfSuspended.endReason = some r ↔ u.returnIfSuspended.status = .exit r := by
  obtain ⟨hmark, _, hturn, _, hreplies, habort⟩ := hsame
  obtain ⟨hclear, hnone, hengine, _⟩ := hrun
  rw [State.outputsOf_returnIfSuspended, hreplies, State.returnIfSuspended_status]
  refine ⟨?turn, fun hs => ?replies, rfl, fun r => ?ended⟩
  case turn =>
    rcases u.returnIfSuspended_cases with ⟨hp, hu⟩ | ⟨hs, hu⟩
    · simp [hu, hp, hturn, hengine]
    · simp [hu, hs]
  case replies => rw [State.returnIfSuspended_of_suspended hs, hreplies]
  case ended => simp [State.endReason_eq_some_iff, hmark, hclear, habort, hnone]

end Sys2Proof.Machine
end

section
/-! The proofs of O37, O42 to O46, O48, O50 and O58. -/

namespace Sys2Proof.Certificates.Slice0

open Sys2Proof Sys2Proof.Machine

/-- Settles O37: a running RESUME is Paused, so the fault is the step's own, and fault entry is the whole effect; later steps
keep the exit. -/
theorem faultsArePrecise : Obligations.FaultsArePrecise := by
  refine ⟨fun s t f hrun hstep ht => ?_, fun s t f hs hstep => (stepEffect hstep).exit_cases hs⟩
  obtain hs | ⟨_, _, rfl⟩ := (stepEffect hstep).fault_cases ht
  · exact nomatch hs.symm.trans hrun.status_eq
  · exact ⟨rfl, rfl, rfl, rfl, rfl, rfl, rfl, rfl, rfl⟩

/-- Settles O42: only a refused word sets the mark, and only the mark makes a step answer a refusal. -/
theorem noRefusalUnderIgnore : Obligations.NoRefusalUnderIgnore := by
  refine fun s hignore hclear => ⟨fun t hstep => ?mark, fun r hstep => ?refusal⟩
  case mark =>
    cases stepEffect hstep with
    | completes i u running fetched completed =>
      obtain ⟨hmark, _⟩ := completed.sameSurroundings
      rw [State.returnIfSuspended_refused, hmark, hclear]
    | refuses running excess => exact nomatch hignore.symm.trans excess
    | returns => rw [State.returnIfSuspended_refused, hclear]
    | resumes cs => rw [State.resume_refused, hclear]
    | loads => rfl
    | faults | feeds | keeps => exact hclear
  case refusal => exact Bool.false_ne_true (hclear.symm.trans (refused_of_step_refused hstep))

/-- Settles O43: among the completing instructions only ARB sets `rb`, and among the other effects only LOAD. -/
theorem onlyArbWritesRelativeBase : Obligations.OnlyArbWritesRelativeBase := by
  intro s t hstep hne
  cases stepEffect hstep with
  | completes i u running fetched completed =>
    rw [State.returnIfSuspended_rb] at hne
    obtain ⟨a, rfl⟩ := completed.rb_cases.resolve_left hne
    exact .inl ⟨running, a, fetched⟩
  | loads p cs issued => exact .inr ⟨p, cs, issued⟩
  | returns => exact absurd (State.returnIfSuspended_rb s) hne
  | resumes cs => exact absurd (State.resume_rb _) hne
  | faults | refuses | feeds | keeps => exact absurd rfl hne

/-- Settles O44: among the completing instructions only the storing ones set memory, and among the other effects only FEED and
LOAD. -/
theorem memoryChangesOnlyByStores : Obligations.MemoryChangesOnlyByStores := by
  intro s t hstep hne
  cases stepEffect hstep with
  | completes i u running fetched completed =>
    rw [State.returnIfSuspended_mem] at hne
    obtain ⟨⟨a, b, c, hi⟩, _⟩ := completed.mem_cases.resolve_left hne
    refine .inl ⟨running, a, b, c, ?_⟩
    rcases hi with rfl | rfl | rfl | rfl <;> simp [fetched]
  | feeds x cs dst issued waits => exact .inr (.inl ⟨x, cs, dst, issued, waits, rfl⟩)
  | loads p cs issued => exact .inr (.inr ⟨p, cs, issued⟩)
  | returns => exact absurd (State.returnIfSuspended_mem s) hne
  | resumes cs => exact absurd (State.resume_mem _) hne
  | faults | refuses | keeps => exact absurd rfl hne

/-- Settles O45: a completing instruction leaves memory, or writes it at one address. -/
theorem atMostOneWordWritten : Obligations.AtMostOneWordWritten := by
  intro s t hrun hstep x y hx hy
  rcases step_cases_of_running hrun hstep with ⟨i, u, _, hcomp, rfl⟩ | ⟨f, rfl, _⟩ | ⟨_, rfl⟩
  · rw [State.returnIfSuspended_mem] at hx hy
    rcases hcomp.mem_cases with hmem | ⟨_, dst, r, _, _, hmem⟩
    · exact absurd (by rw [hmem]) hx
    · have honly (z : Nat) (hz : u.mem.read z ≠ s.mem.read z) : z = dst := by
        by_contra hne
        exact hz (by rw [hmem, Memory.read_write_other s.mem r hne])
      rw [honly x hx, honly y hy]
  · exact absurd rfl hx
  · exact absurd rfl hx

/-- Settles O46: the effects that set the status are the transitions listed. -/
theorem legalStatusTransitions : Obligations.LegalStatusTransitions := by
  intro s t hstep hne
  cases stepEffect hstep with
  | completes i u running fetched completed =>
    rw [State.returnIfSuspended_status] at hne ⊢
    refine .inl ⟨running, ?_⟩
    rcases completed.status_cases.resolve_left hne with ⟨c, dst, rfl, hdst, _, hu, _⟩ | ⟨a, v, rfl, hv, hu, _⟩ | ⟨rfl, hu, _⟩
    · exact .inl ⟨c, dst, fetched, hdst, hu⟩
    · exact .inr (.inl ⟨a, v, fetched, hv, hu⟩)
    · exact .inr (.inr (.inl ⟨fetched, hu⟩))
  | faults f running legal => exact .inl ⟨running, .inr (.inr (.inr ⟨f, rfl⟩))⟩
  | resumes cs issued =>
    rw [State.resume_status] at hne
    obtain ⟨v, hv⟩ := Status.eq_outputting_of_discardOutput_ne hne
    have hresume := State.resume_of_starts (s := { s with commands := cs }) (by rw [hv]; rfl)
    exact .inr (.inl ⟨v, cs, issued, hv, by rw [hresume], by rw [hresume]⟩)
  | feeds x cs dst issued waits => exact .inr (.inr (.inl ⟨dst, x, cs, issued, waits, rfl⟩))
  | loads p cs issued => exact .inr (.inr (.inr ⟨p, cs, issued, rfl⟩))
  | returns => exact absurd (State.returnIfSuspended_status s) hne
  | refuses | keeps => exact absurd rfl hne

/-- Settles O48: a step of a running RESUME ends with the test of the run loop, after a completion or a fault; or it refuses
the word, and neither returns nor ends the run. -/
theorem controlReturnsOnlyAtBoundaries : Obligations.ControlReturnsOnlyAtBoundaries := by
  intro s t hrun hstep
  have hs := hrun.status_eq
  rcases step_cases_of_running hrun hstep with ⟨i, u, hi, hcomp, rfl⟩ | ⟨f, rfl, _⟩ | ⟨_, rfl⟩
  · obtain ⟨hturn, hreplies, houtputs, hended⟩ := returnIfSuspended_control hrun hcomp.sameSurroundings
    obtain ⟨hinp, hout, hexit, hhalt⟩ := hcomp.suspension hs
    refine ⟨hturn, ?_, ?_, ?_, ?_, hreplies, houtputs, hended⟩ <;>
      simpa only [hi, State.returnIfSuspended_status, State.returnIfSuspended_pc, Except.ok.injEq]
  · have hcontrol := returnIfSuspended_control hrun (takeFault_sameSurroundings s f)
    rw [returnIfSuspended_takeFault] at hcontrol
    obtain ⟨hturn, hreplies, houtputs, hended⟩ := hcontrol
    exact ⟨hturn, nofun, nofun, fun _ _ => rfl, nofun, hreplies, houtputs, hended⟩
  · simp [hs, hrun.turn_eq, Status.outValue, State.endReason_eq_some_iff]

/-- Settles O50: no effect of a step changes the parameters. -/
theorem configNeverChanges : Obligations.ConfigNeverChanges := fun _ _ h => (stepEffect h).config_eq

/-- Settles O58: the fault a step enters is legal, and `CapacityExceeded` is so only where the capacity is bounded. -/
theorem capacityExceededOnlyWhenBounded : Obligations.CapacityExceededOnlyWhenBounded := by
  intro s t hcap hstep ht
  exact ((stepEffect hstep).fault_cases ht).resolve_right fun ⟨_, hlegal, _⟩ => hlegal hcap

end Sys2Proof.Certificates.Slice0
end

section
/-! SUPPORT. Fetch and decode, one equation per outcome (40_execution_cycle.md R100, R106 items 1 to 4), and the step of a
running RESUME that follows each. -/

namespace Sys2Proof.Machine

open Sys2Proof

/-! ### The words of an instruction -/

theorem memRead_of_held {s : State} {a : Nat} (h : Capacity.holds s.config.capacity a = true) :
    memRead s a = .ok (s.mem.read a) :=
  memRead_ok_iff.2 ⟨h, rfl⟩

/-- The word at `pc + k` can be fetched: the address exists, and the store holds it. -/
def FetchableAt (s : State) (k : Nat) : Prop :=
  s.pc + k ≤ addrMax ∧ Capacity.holds s.config.capacity (s.pc + k) = true

theorem fetchOperandWord_of_fetchable {s : State} {k : Nat} (h : FetchableAt s k) :
    fetchOperandWord s k = .ok (s.mem.read (s.pc + k)) := by
  rw [fetchOperandWord, checkAddr_of_le h.1]
  exact memRead_of_held h.2

theorem fetchOperandWord_of_overflow {s : State} {k : Nat} (h : addrMax < s.pc + k) :
    fetchOperandWord s k = .error .overflow := by
  rw [fetchOperandWord, checkAddr_of_lt h]
  rfl

theorem fetchOperandWord_of_not_held {s : State} {k : Nat} (hle : s.pc + k ≤ addrMax)
    (hbeyond : Capacity.holds s.config.capacity (s.pc + k) = false) :
    fetchOperandWord s k = .error .capacityExceeded := by
  rw [fetchOperandWord, checkAddr_of_le hle]
  exact memRead_error_iff.2 ⟨hbeyond, rfl⟩

/-- The operand words that stand in memory from position `k` on are what is fetched. -/
theorem fetchOperandWords_of_fetchable {s : State} {k : Nat} {ws : List Word}
    (h : ∀ j (hj : j < ws.length), FetchableAt s (k + j) ∧ s.mem.read (s.pc + (k + j)) = ws[j]) :
    fetchOperandWords s k ws.length = .ok ws := by
  induction ws generalizing k with
  | nil => rfl
  | cons w ws ih =>
    obtain ⟨hfirst, hw⟩ := h 0 (by simp)
    have hrest : fetchOperandWords s (k + 1) ws.length = .ok ws := ih fun j hj => by
      have hj' := h (j + 1) (by simpa using hj)
      have hposition : k + (j + 1) = k + 1 + j := by omega
      rwa [hposition] at hj'
    refine bind_ok_iff.2 ⟨w, ?_, bind_ok_iff.2 ⟨ws, hrest, rfl⟩⟩
    exact (fetchOperandWord_of_fetchable hfirst).trans (congrArg _ hw)

/-- The first operand word that cannot be fetched gives its fault (40_execution_cycle.md R106 item 4). -/
theorem fetchOperandWords_of_first_error {s : State} {k j n : Nat} {f : BlockFault} (hj : j < n)
    (hbefore : ∀ i < j, FetchableAt s (k + i)) (hf : fetchOperandWord s (k + j) = .error f) :
    fetchOperandWords s k n = .error f := by
  induction j generalizing k n with
  | zero =>
    obtain ⟨m, rfl⟩ := Nat.exists_eq_succ_of_ne_zero hj.ne'
    exact bind_error_iff.2 (.inl hf)
  | succ j ih =>
    obtain ⟨m, rfl⟩ := Nat.exists_eq_succ_of_ne_zero (Nat.ne_zero_of_lt hj)
    have hrest : fetchOperandWords s (k + 1) m = .error f := by
      refine ih (Nat.lt_of_succ_lt_succ hj) (fun i hi => ?_) ?_
      · have hi' := hbefore (i + 1) (Nat.succ_lt_succ hi)
        rwa [Nat.add_comm i, ← Nat.add_assoc] at hi'
      · rwa [Nat.add_comm j, ← Nat.add_assoc] at hf
    refine bind_error_iff.2 (.inr ⟨_, fetchOperandWord_of_fetchable (hbefore 0 j.succ_pos), ?_⟩)
    exact bind_error_iff.2 (.inl hrest)

/-! ### Fetch and decode -/

theorem fetchInstr_of_not_held {s : State} (h : Capacity.holds s.config.capacity s.pc = false) :
    fetchInstr s = .error (.fault .capacityExceeded) := by
  have hread : memRead s s.pc = .error .capacityExceeded := memRead_error_iff.2 ⟨h, rfl⟩
  rw [fetchInstr, hread]

section
variable {s : State} (hheld : Capacity.holds s.config.capacity s.pc = true)
include hheld

theorem fetchInstr_of_header_error {r : HeaderReject} (hd : decodeHeader s.config.excess (s.mem.read s.pc) = .error r) :
    fetchInstr s = .error (stopOfReject r) := by
  simp only [fetchInstr, memRead_of_held hheld, hd]

theorem fetchInstr_of_words_error {h : Header} {f : BlockFault}
    (hd : decodeHeader s.config.excess (s.mem.read s.pc) = .ok h)
    (hw : fetchOperandWords s 1 h.op.arity = .error f) : fetchInstr s = .error (.fault f) := by
  simp only [fetchInstr, memRead_of_held hheld, hd, hw]

theorem fetchInstr_of_words {h : Header} {ws : List Word}
    (hd : decodeHeader s.config.excess (s.mem.read s.pc) = .ok h)
    (hw : fetchOperandWords s 1 h.op.arity = .ok ws) : fetchInstr s = .ok (h.toInstr ws) := by
  simp only [fetchInstr, memRead_of_held hheld, hd, hw]

end

/-- The instruction fetched is the one that the words at `pc` decode to. -/
theorem fetchInstr_of_wordsAtPc {s : State} {ws : List Word} {i : Instr}
    (hdec : decode s.config.excess ws = .ok (i, [])) (hws : wordsAtPc s ws) : fetchInstr s = .ok i := by
  obtain ⟨w, h, args, hd, hlen, rfl, rfl⟩ := decode_ok_iff.1 hdec
  obtain ⟨_, hheld, hw⟩ := hws 0 (by simp)
  obtain rfl : s.mem.read s.pc = w := hw
  refine fetchInstr_of_words hheld hd ?_
  rw [← hlen]
  refine fetchOperandWords_of_fetchable fun j hj => ?_
  obtain ⟨hle, hheldj, hwj⟩ := hws (j + 1) (by simpa using hj)
  rw [Nat.add_comm 1]
  exact ⟨⟨hle, hheldj⟩, by simpa using hwj⟩

/-! ### The step that follows -/

section
variable {s : State} (hrun : s.running)
include hrun

theorem step_of_fetch {i : Instr} (hi : fetchInstr s = .ok i) : step s = afterInstr (exec i s) := by
  rw [step_of_running hrun, engineStep, hi]

theorem step_of_fetch_fault {f : BlockFault} (hf : fetchInstr s = .error (.fault f)) :
    step s = .next (faultedRun s f) := by
  rw [step_of_running hrun, engineStep, hf]
  exact congrArg Host.Outcome.next (returnIfSuspended_takeFault s f)

theorem step_of_fetch_refuse (hf : fetchInstr s = .error .refuse) : step s = .next { s with refused := true } := by
  rw [step_of_running hrun, engineStep, hf]

end

/-- A word that can be fetched is what every fetch of the next instruction from its address returns. -/
theorem fetches_of_read {s : State} {a : Nat} (ha : a ≤ addrMax) (hheld : Capacity.holds s.config.capacity a = true) :
    fetches s a (s.mem.read a) := by
  refine ⟨?_, ?_⟩
  · rintro rfl
    exact memRead_of_held hheld
  · rintro k rfl
    exact fetchOperandWord_of_fetchable ⟨ha, hheld⟩

/-! ### The host's commands -/

/-- FEED in Awaiting completes the input (60_exceptions.md R180). -/
theorem step_of_feed {s : State} {x : Word} {cs : List Command} {dst : Nat} (h : s.hostIssues (.feed x) cs)
    (hs : s.status = .awaiting dst) :
    step s = .next { s with commands := cs, mem := s.mem.write dst x, status := .paused } := by
  rw [step_of_hostIssues h, issue, State.feed, hs]
  rfl

/-- RESUME in Paused or Outputting hands the move to the engine (60_exceptions.md R175, R176). -/
theorem step_of_resume_of_starts {s : State} {cs : List Command} (h : s.hostIssues .resume cs)
    (hs : s.status.discardOutput = .paused) :
    step s = .next { s with commands := cs, status := .paused, turn := .engine } := by
  exact (step_of_hostIssues h).trans (congrArg _ (State.resume_of_starts (s := { s with commands := cs }) hs))

/-- RESUME in Awaiting or Exit returns the status and leaves the block as it is (60_exceptions.md R175, R178). -/
theorem step_of_resume_of_stays {s : State} {cs : List Command} (h : s.hostIssues .resume cs)
    (hstays : s.status.discardOutput = s.status) (hs : s.status ≠ .paused) :
    step s = .next { s with commands := cs, replies := s.replies ++ [.resumed s.status] } := by
  have hresume := State.resume_of_stays (s := { s with commands := cs }) hstays hs
  rw [← h.turn_eq] at hresume
  exact (step_of_hostIssues h).trans (congrArg _ hresume)

/-- FEED outside Awaiting aborts the host (60_exceptions.md R181). -/
theorem State.feed_of_not_awaiting {s : State} (x : Word) (h : ∀ dst, s.status ≠ .awaiting dst) :
    s.feed x = s.abort .feedWhileNotAwaiting := by
  rw [State.feed]
  split
  next dst hs => exact absurd hs (h dst)
  all_goals rfl

/-- The state that FEED followed by RESUME leaves: a running one, with the word at the latched address. -/
def State.woken (s : State) (dst : Nat) (x : Word) (cs : List Command) : State :=
  { s with commands := cs, mem := s.mem.write dst x, status := .paused, turn := .engine }

theorem step_feed_resume {s : State} {x : Word} {cs : List Command} {dst : Nat}
    (h : s.hostIssues (.feed x) (.resume :: cs)) (hs : s.status = .awaiting dst) :
    ∃ t, step s = .next t ∧ step t = .next (s.woken dst x cs) := by
  have hfeed := step_of_feed h hs
  obtain ⟨hclear, hnone, hturn, _⟩ := h
  exact ⟨_, hfeed, step_of_resume_of_starts ⟨hclear, hnone, hturn, rfl⟩ rfl⟩

theorem State.running_woken {s : State} {c : Command} {cs : List Command} (h : s.hostIssues c cs) (dst : Nat) (x : Word)
    (cs' : List Command) : (s.woken dst x cs').running := by
  obtain ⟨hclear, hnone, _, _⟩ := h
  exact ⟨hclear, hnone, rfl, rfl⟩

end Sys2Proof.Machine
end

section
/-! The proofs of O39 to O41, O49 and O52 to O56. -/

namespace Sys2Proof.Certificates.Slice0

open Sys2Proof Sys2Proof.Machine

/-- Settles O39: the instruction fetched is the one decoded, and the test of the run loop follows it. -/
theorem stepRunsDecodedInstruction : Obligations.StepRunsDecodedInstruction := by
  intro s ws i hrun hdec hws
  have hstep := step_of_fetch hrun (fetchInstr_of_wordsAtPc hdec hws)
  refine ⟨hstep, fun t ht => ?_⟩
  have hnext : step s = .next t.returnIfSuspended := hstep.trans (congrArg afterInstr ht)
  exact ⟨fun hs => State.returnIfSuspended_of_paused hs ▸ hnext,
    fun hs => State.returnIfSuspended_of_suspended hs ▸ hnext⟩

/-- Settles O40: each stage of fetch and decode raises its fault where the stages before it pass. -/
theorem fetchFaultsInOrder : Obligations.FetchFaultsInOrder := by
  refine fun s hrun => ⟨fun hbeyond => ?word, fun hheld => ⟨fun t hd => ?opcode, fun d hd => ?mode, ?operands⟩⟩
  case word => exact step_of_fetch_fault hrun (fetchInstr_of_not_held hbeyond)
  case opcode => exact step_of_fetch_fault hrun (fetchInstr_of_header_error hheld hd)
  case mode => exact step_of_fetch_fault hrun (fetchInstr_of_header_error hheld hd)
  case operands =>
    intro h k hd hk hkn hbefore
    obtain ⟨j, rfl⟩ : ∃ j, k = 1 + j := ⟨k - 1, by omega⟩
    have hfetch {f : BlockFault} (hf : fetchOperandWord s (1 + j) = .error f) : step s = .next (faultedRun s f) :=
      step_of_fetch_fault hrun (fetchInstr_of_words_error hheld hd
        (fetchOperandWords_of_first_error (by omega) (fun i hi => hbefore (1 + i) (by omega) (by omega)) hf))
    exact ⟨fun hover => hfetch (fetchOperandWord_of_overflow hover),
      fun hle hbeyond => hfetch (fetchOperandWord_of_not_held hle hbeyond)⟩

/-- Settles O41: the rejection of a word with excess digits is the model's refusal, which only sets the mark, and a step looks
at the mark first. -/
theorem refusalSetsMarkAndStops : Obligations.RefusalSetsMarkAndStops :=
  ⟨fun _ hrun hheld hd => step_of_fetch_refuse hrun (fetchInstr_of_header_error hheld hd), fun _ hmark => if_pos hmark⟩

/-- Settles O49: both writes leave a running state whose memory holds the word at the address, and every fetch reads that
memory. -/
theorem fetchSeesEarlierWrites : Obligations.FetchSeesEarlierWrites := by
  refine ⟨fun s i a b c va vb r dst hrun hi ha hb hc hpc hheld hres => ?stored, fun s x cs dst h hs hdst hheld => ?fed⟩
  case stored =>
    have hstores (g : Word → Word → Except BlockFault Word) (hg : g va vb = .ok r) :=
      congrArg (complete s) (storeResult_of_held ha hb hc hg hpc hheld)
    have hexec : exec i s = .next ((s.store dst r).setPc (s.pc + 4)) := by
      rcases hres with ⟨rfl, hr⟩ | ⟨rfl, hr⟩ | ⟨rfl, rfl⟩ | ⟨rfl, rfl⟩
      · exact hstores _ (checkWord_of_isResult hr)
      · exact hstores _ (checkWord_of_isResult hr)
      · exact hstores (fun va vb => .ok (truthWord (lessThan va vb))) (congrArg _ (truthWord_decide _))
      · exact hstores (fun va vb => .ok (truthWord (equals va vb))) (congrArg _ (truthWord_decide _))
    have hstep : step s = .next ((s.store dst r).setPc (s.pc + 4)) := by
      rw [step_of_fetch hrun hi, hexec]
      exact congrArg Host.Outcome.next (State.returnIfSuspended_of_paused hrun.status_eq)
    refine ⟨_, hstep, hrun, rfl, ?_⟩
    simpa using fetches_of_read (s := (s.store dst r).setPc (s.pc + 4)) (resolveWrite_le hc) hheld
  case fed =>
    obtain ⟨t, hfeed, hresume⟩ := step_feed_resume h hs
    refine ⟨t, _, hfeed, hresume, State.running_woken h dst x cs, rfl, ?_⟩
    simpa [State.woken] using fetches_of_read (s := s.woken dst x cs) hdst hheld

/-- Settles O52: an output is discarded and any other status kept, and the run starts where that is Paused. -/
theorem resumeFromEachStatus : Obligations.ResumeFromEachStatus := by
  refine fun s cs h => ⟨fun dst hs => ?awaiting, fun r hs => ?exit, fun v hs => ?outputting, fun hs => ?paused⟩
  case awaiting => rw [step_of_resume_of_stays h (by rw [hs]; rfl) (by simp [hs]), hs]
  case exit => rw [step_of_resume_of_stays h (by rw [hs]; rfl) (by simp [hs]), hs]
  case outputting => exact step_of_resume_of_starts h (by rw [hs]; rfl)
  case paused => rw [step_of_resume_of_starts h (by rw [hs]; rfl), ← hs]

/-- Settles O53: the invariant has the store hold the latched address, so the check that FEED leaves out would pass. -/
theorem feedCompletesInput : Obligations.FeedCompletesInput := by
  refine fun s x cs dst h hs => ⟨step_of_feed h hs, fun hinv => ?_⟩
  have hlegal := hinv.status_legal
  rw [hs] at hlegal
  exact memWrite_ok_iff.2 ⟨hlegal.2, rfl⟩

/-- Settles O54: the abort is recorded, and the next step looks at it before the turn. -/
theorem feedOutsideAwaitingAborts : Obligations.FeedOutsideAwaitingAborts := by
  intro s x cs h hs
  have hfeed := State.feed_of_not_awaiting (s := { s with commands := cs }) x hs
  refine ⟨_, (step_of_hostIssues h).trans (congrArg _ hfeed), ⟨rfl, rfl, rfl, rfl⟩, rfl, rfl, ?_⟩
  simp [step, advance, h.1]

/-- Settles O55: INSPECT of an address appends a reply, and abandoning does nothing. -/
theorem inspectReadsOnly : Obligations.InspectReadsOnly :=
  ⟨fun _ _ _ h ha => (step_of_hostIssues h).trans (congrArg _ (if_pos ha)), fun _ _ h => step_of_hostIssues h⟩

/-- Settles O56: FEED and RESUME take a step each, and only the word fed differs in memory. -/
theorem feedAndResumeWake : Obligations.FeedAndResumeWake := by
  intro s x cs dst h hs
  obtain ⟨t, hfeed, hresume⟩ := step_feed_resume h hs
  have hrun : Sys2Proof.core.run 2 s = .next (s.woken dst x cs) := by
    rw [run_next 1 hfeed, run_next 0 hresume]
    rfl
  exact ⟨_, hrun, State.running_woken h dst x cs, rfl, rfl, Memory.read_write_same s.mem dst x,
    fun a hne => Memory.read_write_other s.mem x hne, rfl, rfl, rfl⟩

end Sys2Proof.Certificates.Slice0
end

section
/-! SUPPORT. The engine commutes with a change of the host's side: of the commands to come and of the earlier replies
(10_state.md R32, 40_execution_cycle.md R111). -/

namespace Sys2Proof.Machine

open Sys2Proof

/-- The state with other commands to come, and with further replies before its own. -/
def State.withHost (s : State) (cs : List Command) (rs : List Reply) : State :=
  { s with commands := cs, replies := rs ++ s.replies }

variable (s : State) (cs : List Command) (rs : List Reply)

/-! ### What the engine reads -/

theorem resolveRead_withHost (o : Operand) : resolveRead (s.withHost cs rs) o = resolveRead s o := by cases o <;> rfl

theorem resolveWrite_withHost (o : Operand) : resolveWrite (s.withHost cs rs) o = resolveWrite s o := by cases o <;> rfl

theorem nextPc_withHost (n : Nat) : nextPc (s.withHost cs rs) n = nextPc s n := rfl

theorem branchPc_withHost (taken : Bool) (w : Word) : branchPc (s.withHost cs rs) taken w = branchPc s taken w := rfl

theorem checkCapacity_withHost (a : Nat) : checkCapacity (s.withHost cs rs) a = checkCapacity s a := rfl

theorem memWrite_withHost (a : Nat) (v : Word) :
    memWrite (s.withHost cs rs) a v = (fun t => t.withHost cs rs) <$> memWrite s a v := by
  cases hheld : Capacity.holds s.config.capacity a with
  | true =>
    rw [(memRead_memWrite_of_holds v hheld).2]
    exact (memRead_memWrite_of_holds (s := s.withHost cs rs) v hheld).2
  | false =>
    rw [(memRead_memWrite_of_not_holds v hheld).2]
    exact (memRead_memWrite_of_not_holds (s := s.withHost cs rs) v hheld).2

theorem fetchOperandWords_withHost (k n : Nat) :
    fetchOperandWords (s.withHost cs rs) k n = fetchOperandWords s k n := by
  induction n generalizing k with
  | zero => rfl
  | succ n ih =>
    rw [fetchOperandWords, ih]
    rfl

theorem fetchInstr_withHost : fetchInstr (s.withHost cs rs) = fetchInstr s := by
  simp only [fetchInstr, fetchOperandWords_withHost]
  rfl

/-! ### What the engine does -/

theorem complete_withHost (r : Except BlockFault State) :
    complete (s.withHost cs rs) ((fun t => t.withHost cs rs) <$> r) =
      mapNext (fun t => t.withHost cs rs) (complete s r) := by
  cases r <;> rfl

theorem storeResult_withHost (g : Word → Word → Except BlockFault Word) (a b c : Operand) :
    storeResult g a b c (s.withHost cs rs) = (fun t => t.withHost cs rs) <$> storeResult g a b c s := by
  simp only [storeResult, resolveRead_withHost, resolveWrite_withHost, nextPc_withHost, memWrite_withHost, map_bind,
    bind_map_left]
  rfl

theorem jumpIf_withHost (taken : Word → Bool) (a b : Operand) :
    jumpIf taken a b (s.withHost cs rs) = (fun t => t.withHost cs rs) <$> jumpIf taken a b s := by
  simp only [jumpIf, resolveRead_withHost, branchPc_withHost, map_bind]
  rfl

theorem suspendAs_withHost (st : Status) :
    suspendAs (s.withHost cs rs) st = (fun t => t.withHost cs rs) <$> suspendAs s st := by
  simp only [suspendAs, nextPc_withHost, map_bind]
  rfl

theorem rebaseAndAdvance_withHost (nrb : Word) :
    rebaseAndAdvance (s.withHost cs rs) nrb = (fun t => t.withHost cs rs) <$> rebaseAndAdvance s nrb := by
  simp only [rebaseAndAdvance, nextPc_withHost, map_bind]
  rfl

theorem exec_withHost (i : Instr) : exec i (s.withHost cs rs) = mapNext (fun t => t.withHost cs rs) (exec i s) := by
  have lift {r r' : Except BlockFault State} (h : r' = (fun t => t.withHost cs rs) <$> r) :
      complete (s.withHost cs rs) r' = mapNext (fun t => t.withHost cs rs) (complete s r) :=
    h ▸ complete_withHost s cs rs r
  cases i with
  | add a b c => exact lift (storeResult_withHost s cs rs _ a b c)
  | mul a b c => exact lift (storeResult_withHost s cs rs _ a b c)
  | lt a b c => exact lift (storeResult_withHost s cs rs _ a b c)
  | eq a b c => exact lift (storeResult_withHost s cs rs _ a b c)
  | jt a b => exact lift (jumpIf_withHost s cs rs _ a b)
  | jf a b => exact lift (jumpIf_withHost s cs rs _ a b)
  | inp c =>
    refine lift ?_
    simp only [resolveWrite_withHost, checkCapacity_withHost, suspendAs_withHost, map_bind]
  | out a =>
    refine lift ?_
    simp only [resolveRead_withHost, suspendAs_withHost, map_bind]
  | arb a =>
    refine lift (r := resolveRead s a >>= fun va =>
      checkWord s.config.overflow (s.rb.toInt + va.toInt) >>= rebaseAndAdvance s) ?_
    simp only [resolveRead_withHost, map_bind, ← rebaseAndAdvance_withHost]
    rfl
  | halt => rfl

theorem returnIfSuspended_withHost :
    (s.withHost cs rs).returnIfSuspended = s.returnIfSuspended.withHost cs rs := by
  rcases s.returnIfSuspended_cases with ⟨hp, hs⟩ | ⟨hp, hs⟩
  · rw [hs]
    exact State.returnIfSuspended_of_paused hp
  · rw [hs, State.returnIfSuspended_of_suspended (s := s.withHost cs rs) hp]
    simp only [State.withHost, List.append_assoc]

theorem afterInstr_withHost (o : Host.Outcome State Fault Refusal) :
    afterInstr (mapNext (fun t => t.withHost cs rs) o) = mapNext (fun t => t.withHost cs rs) (afterInstr o) := by
  cases o with
  | next t => exact congrArg Host.Outcome.next (returnIfSuspended_withHost t cs rs)
  | fault => rfl
  | refused => rfl

theorem engineStep_withHost :
    engineStep (s.withHost cs rs) = mapNext (fun t => t.withHost cs rs) (engineStep s) := by
  rw [engineStep, engineStep, fetchInstr_withHost]
  cases fetchInstr s with
  | ok i =>
    simp only [exec_withHost]
    exact afterInstr_withHost cs rs (exec i s)
  | error e =>
    cases e with
    | fault f => exact congrArg Host.Outcome.next (returnIfSuspended_withHost (s.takeFault f) cs rs)
    | refuse => rfl

/-- A step in the engine's turn, whether it is the engine's step, the return of a status that is not Paused, the answer of an
aborted host or a refusal. -/
theorem step_withHost (hengine : s.turn = .engine) :
    step (s.withHost cs rs) = mapNext (fun t => t.withHost cs rs) (step s) := by
  have hreturn : Host.Outcome.next (s.withHost cs rs).returnIfSuspended =
      mapNext (fun t => t.withHost cs rs) (.next s.returnIfSuspended : Host.Outcome State Fault Refusal) :=
    congrArg Host.Outcome.next (returnIfSuspended_withHost s cs rs)
  have hfields : (s.withHost cs rs).refused = s.refused ∧ (s.withHost cs rs).aborted = s.aborted ∧
      (s.withHost cs rs).turn = s.turn ∧ (s.withHost cs rs).status = s.status := ⟨rfl, rfl, rfl, rfl⟩
  simp only [step, advance, hfields, hengine]
  cases s.refused with
  | true => rfl
  | false =>
    cases s.aborted with
    | some e => rfl
    | none =>
      cases s.status with
      | paused => exact engineStep_withHost s cs rs
      | awaiting | outputting | exit => exact hreturn

end Sys2Proof.Machine
end

section
/-! The proof of O51. -/

namespace Sys2Proof.Certificates.Slice0

open Sys2Proof Sys2Proof.Machine

/-- Settles O51: everything the engine calls reads the block alone, and what it adds to the replies goes to their end. -/
theorem engineIgnoresHost : Obligations.EngineIgnoresHost := step_withHost

end Sys2Proof.Certificates.Slice0
end
